-- ==== Sys2Proof/Word.lean ====
section
/-! DEFINITION. The machine's word and the field types of its instructions. -/

namespace Sys2Proof

/-- A 16-bit word: register, address, memory cell and instruction alike (R4, R8). `+` on it wraps
modulo 65536, as every sum of the spec does (R8, R75). -/
abbrev Word := BitVec 16

/-- What the console port carries (R6). -/
abbrev Byte := BitVec 8

/-- A register index, a 3-bit field of an instruction: 0 .. 7 into x[] (R10, R52). -/
abbrev RegIdx := BitVec 3

end Sys2Proof
end

