-- ==== Sys2Proof/Syntax.lean ====
section
/-! DEFINITION. The instructions: one constructor per row of spec/opcode_table.json, in the table's order. -/

namespace Sys2Proof

/-- An instruction with the operand fields of its format (R51). `dc` fields are the don't-care bits of
the word (R56): they are kept so that an instruction is its word and no bit is dropped, and no meaning reads them.

Four groups of rows overlap in the table; log entry 7 says which words each constructor takes. -/
inductive Instr where
  /-- BR (R90), with at least one condition bit or a non-zero offset; the all-zero word is `nop`. -/
  | br (n z p : Bool) (off9 : BitVec 9)
  /-- ADD, register mode (R70). -/
  | addReg (dr sr1 : RegIdx) (dc : BitVec 2) (sr2 : RegIdx)
  /-- ADD, immediate mode (R71). -/
  | addImm (dr sr1 : RegIdx) (imm5 : BitVec 5)
  /-- LD (R80). -/
  | ld (dr : RegIdx) (off9 : BitVec 9)
  /-- ST (R84). -/
  | st (sr : RegIdx) (off9 : BitVec 9)
  /-- JSR (R93). -/
  | jsr (off11 : BitVec 11)
  /-- JSRR (R94). -/
  | jsrr (dcHi : BitVec 2) (base : RegIdx) (dcLo : BitVec 6)
  /-- AND, register mode (R72). -/
  | andReg (dr sr1 : RegIdx) (dc : BitVec 2) (sr2 : RegIdx)
  /-- AND, immediate mode (R73). -/
  | andImm (dr sr1 : RegIdx) (imm5 : BitVec 5)
  /-- LDR (R82). -/
  | ldr (dr base : RegIdx) (off6 : BitVec 6)
  /-- STR (R86). -/
  | str (sr base : RegIdx) (off6 : BitVec 6)
  /-- RTI, reserved (R110). -/
  | rti (dc : BitVec 12)
  /-- NOT (R74). -/
  | not (dr sr1 : RegIdx) (dc : BitVec 6)
  /-- LDI (R81). -/
  | ldi (dr : RegIdx) (off9 : BitVec 9)
  /-- STI (R85). -/
  | sti (sr : RegIdx) (off9 : BitVec 9)
  /-- JMP (R92); the one word 0xC1C0 is `ret`. -/
  | jmp (dcHi : BitVec 3) (base : RegIdx) (dcLo : BitVec 6)
  /-- RES, reserved (R111). -/
  | res (dc : BitVec 12)
  /-- LEA (R83). -/
  | lea (dr : RegIdx) (off9 : BitVec 9)
  /-- TRAP (R100) in its canonical form, bits 11:8 zero: `TRAP xVV` of R61. Its meaning is R100's dispatch
  on every vector; the decoder gives it only the vectors no service row takes. -/
  | trap (vect : BitVec 8)
  /-- TRAP x20 (R101). -/
  | trapGetc (dc : BitVec 4)
  /-- TRAP x21 (R103). -/
  | trapOut (dc : BitVec 4)
  /-- TRAP x22 (R104). -/
  | trapPuts (dc : BitVec 4)
  /-- TRAP x23 (R105). -/
  | trapIn (dc : BitVec 4)
  /-- TRAP x24 (R106). -/
  | trapPutsp (dc : BitVec 4)
  /-- TRAP x25 (R107). -/
  | trapHalt (dc : BitVec 4)
  /-- TRAP with a vector no service has (R108), bits 11:8 not zero. -/
  | trapOther (dc : BitVec 4) (vect : BitVec 8)
  /-- RET, the word 0xC1C0 (R62, R92). -/
  | ret
  /-- NOP, the word 0x0000 (R59, R62). -/
  | nop
  deriving DecidableEq, Repr

end Sys2Proof
end

