-- ==== Sys2Proof/WellFormed.lean ====
section
/-! DEFINITION. Which instructions are the reading of some word. -/

namespace Sys2Proof

/-- The six vectors a service answers to: 0x20 .. 0x25 (R4, R58). -/
def servedVector (v : BitVec 8) : Bool :=
  v == 0x20 || v == 0x21 || v == 0x22 || v == 0x23 || v == 0x24 || v == 0x25

/-- Every field value of the formats is an encodable one (R52), so only the rows that share words need a
check: a word belongs to one constructor (R55; log entry 7). -/
def Instr.wellFormed : Instr → Bool
  | .br n z p off9 => n || z || p || off9 != 0
  | .addReg _ _ _ _ => true
  | .addImm _ _ _ => true
  | .ld _ _ => true
  | .st _ _ => true
  | .jsr _ => true
  | .jsrr _ _ _ => true
  | .andReg _ _ _ _ => true
  | .andImm _ _ _ => true
  | .ldr _ _ _ => true
  | .str _ _ _ => true
  | .rti _ => true
  | .not _ _ _ => true
  | .ldi _ _ => true
  | .sti _ _ => true
  | .jmp dcHi base dcLo => dcHi != 0 || base != 7 || dcLo != 0
  | .res _ => true
  | .lea _ _ => true
  | .trap vect => !servedVector vect
  | .trapGetc _ => true
  | .trapOut _ => true
  | .trapPuts _ => true
  | .trapIn _ => true
  | .trapPutsp _ => true
  | .trapHalt _ => true
  | .trapOther dc vect => dc != 0 && !servedVector vect
  | .ret => true
  | .nop => true

/-- The instruction is the reading of a word. -/
abbrev WellFormed (i : Instr) : Prop := i.wellFormed = true

end Sys2Proof
end

