-- ==== Sys2Proof/Decode.lean ====
section
/-! DEFINITION. Decoding a 16-bit word (R50 to R58), and the encoder written from the same formats. -/

namespace Sys2Proof

/-- TRAP words (R100): the service rows first (they have priority in the table), then the row TRAP for
canonical don't-care bits and the row of the other vectors for the rest (log entry 7). -/
def decodeTrap (dc : BitVec 4) (vect : BitVec 8) : Instr :=
  if vect = 0x20 then .trapGetc dc
  else if vect = 0x21 then .trapOut dc
  else if vect = 0x22 then .trapPuts dc
  else if vect = 0x23 then .trapIn dc
  else if vect = 0x24 then .trapPutsp dc
  else if vect = 0x25 then .trapHalt dc
  else if dc = 0 then .trap vect
  else .trapOther dc vect

/-- `Decode(instr)` of R55. Total: the 4-bit opcode has sixteen values and each is an instruction, so no
word is rejected; the last arm is opcode 0xF and nothing else. -/
def decode (w : Word) : Instr :=
  match w.extractLsb' 12 4 with
  | 0x0#4 =>
    if w = 0 then .nop
    else .br (w.getLsbD 11) (w.getLsbD 10) (w.getLsbD 9) (w.extractLsb' 0 9)
  | 0x1#4 =>
    if w.getLsbD 5 then .addImm (w.extractLsb' 9 3) (w.extractLsb' 6 3) (w.extractLsb' 0 5)
    else .addReg (w.extractLsb' 9 3) (w.extractLsb' 6 3) (w.extractLsb' 3 2) (w.extractLsb' 0 3)
  | 0x2#4 => .ld (w.extractLsb' 9 3) (w.extractLsb' 0 9)
  | 0x3#4 => .st (w.extractLsb' 9 3) (w.extractLsb' 0 9)
  | 0x4#4 =>
    if w.getLsbD 11 then .jsr (w.extractLsb' 0 11)
    else .jsrr (w.extractLsb' 9 2) (w.extractLsb' 6 3) (w.extractLsb' 0 6)
  | 0x5#4 =>
    if w.getLsbD 5 then .andImm (w.extractLsb' 9 3) (w.extractLsb' 6 3) (w.extractLsb' 0 5)
    else .andReg (w.extractLsb' 9 3) (w.extractLsb' 6 3) (w.extractLsb' 3 2) (w.extractLsb' 0 3)
  | 0x6#4 => .ldr (w.extractLsb' 9 3) (w.extractLsb' 6 3) (w.extractLsb' 0 6)
  | 0x7#4 => .str (w.extractLsb' 9 3) (w.extractLsb' 6 3) (w.extractLsb' 0 6)
  | 0x8#4 => .rti (w.extractLsb' 0 12)
  | 0x9#4 => .not (w.extractLsb' 9 3) (w.extractLsb' 6 3) (w.extractLsb' 0 6)
  | 0xA#4 => .ldi (w.extractLsb' 9 3) (w.extractLsb' 0 9)
  | 0xB#4 => .sti (w.extractLsb' 9 3) (w.extractLsb' 0 9)
  | 0xC#4 =>
    if w = 0xC1C0 then .ret
    else .jmp (w.extractLsb' 9 3) (w.extractLsb' 6 3) (w.extractLsb' 0 6)
  | 0xD#4 => .res (w.extractLsb' 0 12)
  | 0xE#4 => .lea (w.extractLsb' 9 3) (w.extractLsb' 0 9)
  | _ => decodeTrap (w.extractLsb' 8 4) (w.extractLsb' 0 8)

/-- Fields that add up to 16 bits, as a word. -/
def wordOf {n : Nat} (f : BitVec n) (h : n = 16 := by rfl) : Word := f.cast h

/-- The word of an instruction, from the formats of R51 and the opcodes of R54, most significant field first. -/
def encode : Instr → Word
  | .br n z p off9 => wordOf (0x0#4 ++ BitVec.ofBool n ++ BitVec.ofBool z ++ BitVec.ofBool p ++ off9)
  | .addReg dr sr1 dc sr2 => wordOf (0x1#4 ++ dr ++ sr1 ++ 0#1 ++ dc ++ sr2)
  | .addImm dr sr1 imm5 => wordOf (0x1#4 ++ dr ++ sr1 ++ 1#1 ++ imm5)
  | .ld dr off9 => wordOf (0x2#4 ++ dr ++ off9)
  | .st sr off9 => wordOf (0x3#4 ++ sr ++ off9)
  | .jsr off11 => wordOf (0x4#4 ++ 1#1 ++ off11)
  | .jsrr dcHi base dcLo => wordOf (0x4#4 ++ 0#1 ++ dcHi ++ base ++ dcLo)
  | .andReg dr sr1 dc sr2 => wordOf (0x5#4 ++ dr ++ sr1 ++ 0#1 ++ dc ++ sr2)
  | .andImm dr sr1 imm5 => wordOf (0x5#4 ++ dr ++ sr1 ++ 1#1 ++ imm5)
  | .ldr dr base off6 => wordOf (0x6#4 ++ dr ++ base ++ off6)
  | .str sr base off6 => wordOf (0x7#4 ++ sr ++ base ++ off6)
  | .rti dc => wordOf (0x8#4 ++ dc)
  | .not dr sr1 dc => wordOf (0x9#4 ++ dr ++ sr1 ++ dc)
  | .ldi dr off9 => wordOf (0xA#4 ++ dr ++ off9)
  | .sti sr off9 => wordOf (0xB#4 ++ sr ++ off9)
  | .jmp dcHi base dcLo => wordOf (0xC#4 ++ dcHi ++ base ++ dcLo)
  | .res dc => wordOf (0xD#4 ++ dc)
  | .lea dr off9 => wordOf (0xE#4 ++ dr ++ off9)
  | .trap vect => wordOf (0xF#4 ++ 0#4 ++ vect)
  | .trapGetc dc => wordOf (0xF#4 ++ dc ++ 0x20#8)
  | .trapOut dc => wordOf (0xF#4 ++ dc ++ 0x21#8)
  | .trapPuts dc => wordOf (0xF#4 ++ dc ++ 0x22#8)
  | .trapIn dc => wordOf (0xF#4 ++ dc ++ 0x23#8)
  | .trapPutsp dc => wordOf (0xF#4 ++ dc ++ 0x24#8)
  | .trapHalt dc => wordOf (0xF#4 ++ dc ++ 0x25#8)
  | .trapOther dc vect => wordOf (0xF#4 ++ dc ++ vect)
  | .ret => 0xC1C0
  | .nop => 0x0000

/-- The instruction the decoder reads from an instruction whose bits are `w`, `nbits` of them given and the
rest zero. An instruction is one 16-bit word (R50), so longer ones do not exist. -/
def decodeTableWord (nbits w : Nat) : Option Instr :=
  if nbits ≤ 16 then some (decode (BitVec.ofNat 16 (w % 2 ^ nbits))) else none

end Sys2Proof
end

