-- ==== Sys2Proof/Machine/Params.lean ====
section
/-! DEFINITION. The numbers the spec fixes (R4), and the registers with a role (R11). -/

namespace Sys2Proof.Machine

/-- The reset PC, "the fixed load address (0x3000)" (R4, R141). -/
def resetPc : Word := 0x3000

/-- What every general register holds at reset (R22). -/
def resetReg : Word := 0x0000

/-- What a cell no image covers holds at reset, and so what an unlisted address reads as (R22, R140). -/
def resetCell : Word := 0x0000

/-- KBSR, the keyboard status cell (R4, R19). -/
def kbsr : Word := 0xFE00

/-- KBDR, the keyboard data cell (R4, R19). -/
def kbdr : Word := 0xFE02

/-- What a poll that found a key leaves in KBSR: `1 << 15` (R32). -/
def kbsrReady : Word := 0x8000

/-- What a poll that found none leaves in KBSR (R32). -/
def kbsrIdle : Word := 0x0000

/-- x[7], the link register (R11). -/
def linkReg : RegIdx := 7

/-- x[0], the service register (R11). -/
def serviceReg : RegIdx := 0

end Sys2Proof.Machine
end

