-- ==== Sys2Proof/Machine/State.lean ====
section
/-! DEFINITION. The state of the machine, its reset value, and the reasons a step can stop. -/

namespace Sys2Proof.Machine

/-- A memory cell: a word address and the 16-bit word stored there (R17: the addressable unit is the word). -/
abbrev Cell := Nat × Word

/-- Memory as a sparse list: strictly rising addresses, no cell that holds what an unlisted one reads as. -/
abbrev Memory := List Cell

/-- The condition register's three values (R14). -/
inductive Cond where
  | pos
  | zero
  | neg
  deriving DecidableEq, Repr

/-- The two causes of FATAL (R121). -/
inductive FatalCause where
  | rti
  | res
  deriving DecidableEq, Repr

/-- The engine's run state (R16). FATAL carries its cause for the fault value R121 asks for; no instruction
reads it (D16, log entry 14). -/
inductive RunState where
  | running
  | halted
  | fatal (cause : FatalCause)
  deriving DecidableEq, Repr

/-- A service whose TRAP step has begun and not ended (R9 "hold", R102, R109; log entry 10). -/
inductive Pending where
  /-- GETC is in its `ConRead()` (R101). -/
  | getc
  /-- IN is in its `ConRead()`, the prompt written (R105). -/
  | inRead
  /-- PUTS goes on with the read of this address (R104). -/
  | puts (a : Word)
  /-- PUTSP goes on with the read of this address (R106). -/
  | putsp (a : Word)
  deriving DecidableEq, Repr

/-- Why a step stops with a fault. -/
inductive Fault where
  /-- A step is asked of an engine in FATAL. Raised by `step` alone, on a state that an RTI or RES has left
  (R16, R120: no further step is taken), with the cause R121 names. Safe: the machine does nothing there. -/
  | fatal (cause : FatalCause)
  deriving DecidableEq, Repr

/-- Why a step has no meaning. -/
inductive Refusal where
  /-- An instruction of the table without a meaning in the model. Raised by `exec` alone, in an arm that has no
  meaning yet: no arm is left so. Safe. -/
  | notModelled (mnemonic : String)
  deriving DecidableEq, Repr

/-- The state: the block's tuple and the console environment of 10_state.md, and the service in progress. -/
structure State where
  /-- x[0] .. x[7] (R10). -/
  regs : Vector Word 8
  /-- The program counter (R12). -/
  pc : Word
  /-- The condition register (R14). -/
  cond : Cond
  /-- The run state (R16). -/
  runState : RunState
  /-- The 65536 cells (R17), KBSR and KBDR among them (R19). -/
  mem : Memory
  /-- `kbd_in`, the console's pending input, head first (R7). -/
  kbdIn : List Byte
  /-- `con_out`, the console's output, oldest first (R7). -/
  conOut : List Byte
  /-- The service in progress, if the engine is inside one (R102, R109; log entry 10). -/
  pending : Option Pending
  deriving DecidableEq, Repr

/-- The machine right after reset with no image loaded (R22). `kbdIn` is the environment's and not reset by the
block (R142): empty here, DESIGN CHOICE (log entry 17). -/
def State.reset : State where
  regs := Vector.replicate 8 resetReg
  pc := resetPc
  cond := .zero
  runState := .running
  mem := []
  kbdIn := []
  conOut := []
  pending := none

end Sys2Proof.Machine
end

