-- ==== Sys2Proof/Machine/Memory.lean ====
section
/-! DEFINITION. The memory array behind `MemRead` and `MemWrite`, with no side effect: `mem[a]` of R8. -/

namespace Sys2Proof.Machine

/-- `mem[a]`: the stored cell. -/
def Memory.get : Memory → Nat → Word
  | [], _ => resetCell
  | (b, v) :: rest, a => if a = b then v else Memory.get rest a

/-- The list without the cell `a`. -/
def Memory.erase : Memory → Nat → Memory
  | [], _ => []
  | (b, v) :: rest, a => if a = b then Memory.erase rest a else (b, v) :: Memory.erase rest a

/-- The list with the cell `(a, v)` put before the first higher address. -/
def Memory.insert : Memory → Nat → Word → Memory
  | [], a, v => [(a, v)]
  | (b, w) :: rest, a, v =>
    if a < b then (a, v) :: (b, w) :: rest else (b, w) :: Memory.insert rest a v

/-- `mem[a] <- v`, keeping the canonical form: a cell that holds what an unlisted one reads as is not listed. -/
def Memory.set (m : Memory) (a : Nat) (v : Word) : Memory :=
  if v = resetCell then m.erase a else (m.erase a).insert a v

/-- The canonical form from address `lo` up. -/
def Memory.wfFrom : Nat → Memory → Bool
  | _, [] => true
  | lo, (a, v) :: rest =>
    decide (lo ≤ a) && decide (a < 65536) && (v != resetCell) && Memory.wfFrom (a + 1) rest

/-- The canonical form: addresses strictly rising and inside 0x0000 .. 0xFFFF (R17), no cell at its reset value. -/
def Memory.wf (m : Memory) : Bool := Memory.wfFrom 0 m

end Sys2Proof.Machine
end

