-- ==== Sys2Proof/Machine/Ops.lean ====
section
/-! DEFINITION. The named operations of R8 on the state: registers, memory with the keyboard handler, the console
port, the fetch, the link write, and `raise Fatal`. -/

namespace Sys2Proof.Machine

/-- `x[r]` (R8, R10). -/
def State.reg (s : State) (r : RegIdx) : Word := s.regs[r.toNat]'(r.isLt)

/-- `x[r] <- v` (R8, R10): no register is hard-wired. -/
def State.setReg (s : State) (r : RegIdx) (v : Word) : State :=
  { s with regs := s.regs.set r.toNat v (r.isLt) }

/-- `pc <- v` (R8). -/
def State.setPc (s : State) (v : Word) : State := { s with pc := v }

/-- `mem[a]`, the stored cell, no side effect (R8). -/
def State.cell (s : State) (a : Word) : Word := s.mem.get a.toNat

/-- `mem[a] <- v` (R8). -/
def State.setCell (s : State) (a v : Word) : State := { s with mem := s.mem.set a.toNat v }

/-- `zext_16` (R8). -/
def zextByte (b : Byte) : Word := b.setWidth 16

/-- `ConPoll()` (R7): true exactly when input is pending. -/
def State.conPoll (s : State) : Bool := !s.kbdIn.isEmpty

/-- `ConRead()` (R7): the head of `kbd_in`, removed; none while it is empty, where the operation does not return. -/
def State.conRead (s : State) : Option (Byte × State) :=
  match s.kbdIn with
  | [] => none
  | c :: rest => some (c, { s with kbdIn := rest })

/-- `ConWrite(b)` (R7). -/
def State.conWrite (s : State) (b : Byte) : State := { s with conOut := s.conOut ++ [b] }

/-- `for each byte b of bs in order: ConWrite(b)` (R105, R107). -/
def State.conWriteAll (s : State) (bs : List Byte) : State := { s with conOut := s.conOut ++ bs }

/-- The service in progress becomes `p` (log entry 10). -/
def State.setPending (s : State) (p : Option Pending) : State := { s with pending := p }

/-- The environment appends bytes to `kbd_in` (R7). No step of the engine does this. -/
def State.arrive (s : State) (bs : List Byte) : State := { s with kbdIn := s.kbdIn ++ bs }

/-- `KeyboardPoll()` (R32): a pending character is consumed and latched; none pending clears KBSR and keeps KBDR. -/
def State.keyboardPoll (s : State) : State :=
  match s.conRead with
  | some (c, s1) => (s1.setCell kbsr kbsrReady).setCell kbdr (zextByte c)
  | none => s.setCell kbsr kbsrIdle

/-- What a read of address `a` does before the cell is read (R31). -/
def State.pollAt (s : State) (a : Word) : State := if a = kbsr then s.keyboardPoll else s

/-- `MemRead(a, 1)` (R31): the word, and the state after the poll that a read of 0xFE00 makes. -/
def State.memRead (s : State) (a : Word) : Word × State := ((s.pollAt a).cell a, s.pollAt a)

/-- `MemWrite(a, 1, v)` (R35): a plain store at every address. -/
def State.memWrite (s : State) (a v : Word) : State := s.setCell a v

/-- The fetch and the increment of R148, steps before decode: `instr <- MemRead(pc, 1); pc <- pc + 1`. -/
def State.fetch (s : State) : Word × State :=
  ((s.memRead s.pc).1, (s.memRead s.pc).2.setPc (s.pc + 1))

/-- Trap and call entry: `x[7] <- pc`, the post-fetch PC, and nothing else (R127, R93, R94, R100). There is no
return operation beside it: the next step fetches from the post-fetch PC, and x[7] is not restored (R128). -/
def State.link (s : State) : State := s.setReg linkReg s.pc

/-- `raise Fatal(cause)` (R120), the machine's one exception: the run state and nothing else. It saves nothing and
has no handler and no return (R129). -/
def State.raiseFatal (s : State) (cause : FatalCause) : State := { s with runState := .fatal cause }

end Sys2Proof.Machine
end

