-- ==== Sys2Proof/Machine/Flags.lean ====
section
/-! DEFINITION. The condition register: `SetFlags` and the test BR makes. -/

namespace Sys2Proof.Machine

/-- The flag of a 16-bit value (R15). -/
def condOf (v : Word) : Cond := if v = 0 then .zero else if v.msb then .neg else .pos

/-- `SetFlags(v)` (R15). -/
def State.setFlags (s : State) (v : Word) : State := { s with cond := condOf v }

/-- A destination register written and then flag-tested (R15: SetFlags is called with the value just written). -/
def State.writeResult (s : State) (dr : RegIdx) (v : Word) : State := (s.setReg dr v).setFlags v

/-- The one-hot form of `cond` (R14): N = 0b100, Z = 0b010, P = 0b001. -/
def Cond.bits : Cond → BitVec 3
  | .neg => 0b100
  | .zero => 0b010
  | .pos => 0b001

/-- BR's condition (R90): the bit of the instruction that names the flag held. -/
def Cond.taken (c : Cond) (n z p : Bool) : Bool :=
  (n && c == .neg) || (z && c == .zero) || (p && c == .pos)

end Sys2Proof.Machine
end

