-- ==== Sys2Proof/Machine/Operands.lean ====
section
/-! DEFINITION. Immediates and effective addresses (R52, R53, R87). -/

namespace Sys2Proof.Machine

/-- `sext_N(v)` (R53): the N low bits of v, and bits N .. 15 set where bit N-1 is 1. -/
def sext (n : Nat) (v : Word) : Word :=
  let w := v &&& BitVec.ofNat 16 (2 ^ n - 1)
  if w.getLsbD (n - 1) then w ||| (0xFFFF#16 <<< n) else w

/-- An immediate or offset field of n bits as a word (R52): sign-extended, never scaled. -/
def sextField {n : Nat} (f : BitVec n) : Word := sext n (f.setWidth 16)

/-- PC-relative (R87): post-fetch pc + sext_9(PCoffset9). -/
def State.pcRel9 (s : State) (off9 : BitVec 9) : Word := s.pc + sextField off9

/-- JSR's target (R93): post-fetch pc + sext_11(PCoffset11). -/
def State.pcRel11 (s : State) (off11 : BitVec 11) : Word := s.pc + sextField off11

/-- Base + offset (R87): x[BaseR] + sext_6(offset6). -/
def State.baseOff6 (s : State) (base : RegIdx) (off6 : BitVec 6) : Word := s.reg base + sextField off6

end Sys2Proof.Machine
end

