-- ==== Sys2Proof/Machine/Control.lean ====
section
/-! DEFINITION. Control transfer (42_control.md). `pc` on entry is the post-fetch PC. -/

namespace Sys2Proof.Machine

/-- BR (R90). -/
def execBr (n z p : Bool) (off9 : BitVec 9) (s : State) : Host.Outcome State Fault Refusal :=
  .next (if s.cond.taken n z p then s.setPc (s.pcRel9 off9) else s)

/-- NOP (R59, R62): BR with no condition bit, never taken. -/
def execNop (s : State) : Host.Outcome State Fault Refusal := .next s

/-- JMP (R92). -/
def execJmp (base : RegIdx) (s : State) : Host.Outcome State Fault Refusal :=
  .next (s.setPc (s.reg base))

/-- RET (R92): JMP through the link register. -/
def execRet (s : State) : Host.Outcome State Fault Refusal := .next (s.setPc (s.reg linkReg))

/-- JSR (R93). -/
def execJsr (off11 : BitVec 11) (s : State) : Host.Outcome State Fault Refusal :=
  .next (s.link.setPc (s.pcRel11 off11))

/-- JSRR (R94): the link is written first, so x[7] as base is the link just written (D19; log entry 19). -/
def execJsrr (base : RegIdx) (s : State) : Host.Outcome State Fault Refusal :=
  .next (s.link.setPc (s.link.reg base))

end Sys2Proof.Machine
end

