-- ==== Sys2Proof/Machine/DataMovement.lean ====
section
/-! DEFINITION. The data-movement instructions (41_load_store.md). `pc` is the post-fetch PC. -/

namespace Sys2Proof.Machine

/-- A load of the word at `ea` into x[dr], flags set (R80, R81, R82). -/
def State.loadFrom (s : State) (dr : RegIdx) (ea : Word) : State :=
  (s.memRead ea).2.writeResult dr (s.memRead ea).1

/-- LD (R80). -/
def execLd (dr : RegIdx) (off9 : BitVec 9) (s : State) : Host.Outcome State Fault Refusal :=
  .next (s.loadFrom dr (s.pcRel9 off9))

/-- LDI (R81): the pointer is read first, then the data. -/
def execLdi (dr : RegIdx) (off9 : BitVec 9) (s : State) : Host.Outcome State Fault Refusal :=
  .next ((s.memRead (s.pcRel9 off9)).2.loadFrom dr (s.memRead (s.pcRel9 off9)).1)

/-- LDR (R82): the base is read before DR is written. -/
def execLdr (dr base : RegIdx) (off6 : BitVec 6) (s : State) : Host.Outcome State Fault Refusal :=
  .next (s.loadFrom dr (s.baseOff6 base off6))

/-- LEA (R83): no memory access, and cond is set. -/
def execLea (dr : RegIdx) (off9 : BitVec 9) (s : State) : Host.Outcome State Fault Refusal :=
  .next (s.writeResult dr (s.pcRel9 off9))

/-- ST (R84). -/
def execSt (sr : RegIdx) (off9 : BitVec 9) (s : State) : Host.Outcome State Fault Refusal :=
  .next (s.memWrite (s.pcRel9 off9) (s.reg sr))

/-- STI (R85): the pointer is read, then the word is stored. -/
def execSti (sr : RegIdx) (off9 : BitVec 9) (s : State) : Host.Outcome State Fault Refusal :=
  .next ((s.memRead (s.pcRel9 off9)).2.memWrite (s.memRead (s.pcRel9 off9)).1 (s.reg sr))

/-- STR (R86). -/
def execStr (sr base : RegIdx) (off6 : BitVec 6) (s : State) : Host.Outcome State Fault Refusal :=
  .next (s.memWrite (s.baseOff6 base off6) (s.reg sr))

end Sys2Proof.Machine
end

