-- ==== Sys2Proof/Config.lean ====
section
/-! DEFINITION. What the spec leaves to the implementation: the two texts of R5, with no body, so that every
claim holds whatever they are (R5, D11). -/

namespace Sys2Proof

/-- `IN_PROMPT` (R5): what the IN service writes before it reads. The spec gives no text (N14); its default is
from general knowledge and no claim rests on it (log entry 13). -/
opaque Config.inPrompt : List Byte

/-- `HALT_NOTICE` (R5): what the HALT service writes. The spec gives no text (N14; log entry 13). -/
opaque Config.haltNotice : List Byte

end Sys2Proof
end

