-- ==== Sys2Proof/Machine/Services.lean ====
section
/-! DEFINITION. The six console services of TRAP (R101 to R107), and the resumption of one that waits. Each works on
the state after the link write of R100. -/

namespace Sys2Proof.Machine

/-- The byte the console is sent for a character held in a word: its low 8 bits. For a word above 0x00FF this is the
spec's decision D9 (R103, R104, C3; log entry 12). -/
def charByte (w : Word) : Byte := w.extractLsb' 0 8

/-- The second character of a PUTSP word (R106). -/
def highByte (w : Word) : Byte := w.extractLsb' 8 8

/-- GETC from its `ConRead()` on (R101): with no input the engine holds there (R102). -/
def State.awaitGetc (s : State) : State :=
  match s.conRead with
  | none => s.setPending (some .getc)
  | some (c, s1) => (s1.setPending none).writeResult serviceReg (zextByte c)

/-- IN from its `ConRead()` on (R105): echo, then as GETC. -/
def State.awaitIn (s : State) : State :=
  match s.conRead with
  | none => s.setPending (some .inRead)
  | some (c, s1) => ((s1.setPending none).conWrite c).writeResult serviceReg (zextByte c)

/-- The loop of a string service (R104, R106) from address `a`, for at most `n` reads: a word that `ends` accepts ends it
unwritten, any other is sent as `send` says. The loop is suspended as `wait` says before a later read of 0xFE00, where the
environment's timing matters (R109; log entry 11); with n used up it is suspended where it stands. -/
def State.stringFrom (ends : Word → Bool) (send : Word → List Byte) (wait : Word → Pending) :
    Nat → Word → State → State
  | 0, a, s => s.setPending (some (wait a))
  | n + 1, a, s =>
    if ends (s.memRead a).1 then (s.memRead a).2.setPending none
    else if a + 1 = kbsr then
      ((s.memRead a).2.conWriteAll (send (s.memRead a).1)).setPending (some (wait (a + 1)))
    else State.stringFrom ends send wait n (a + 1) ((s.memRead a).2.conWriteAll (send (s.memRead a).1))

/-- PUTS ends on a whole word of zero (R104). -/
def putsEnds (w : Word) : Bool := w == 0

/-- PUTSP ends on a zero low byte, whatever the high byte (R106). -/
def putspEnds (w : Word) : Bool := w.extractLsb' 0 8 == 0#8

/-- What one word of a PUTS string writes (R104). -/
def plainBytes (w : Word) : List Byte := [charByte w]

/-- What one word of a PUTSP string writes (R106): the low byte, then the high byte unless it is zero. -/
def packedBytes (w : Word) : List Byte :=
  if highByte w = 0 then [w.extractLsb' 0 8] else [w.extractLsb' 0 8, highByte w]

/-- The loop of PUTS (R104). -/
def State.putsFrom (n : Nat) (a : Word) (s : State) : State :=
  State.stringFrom putsEnds plainBytes .puts n a s

/-- The loop of PUTSP (R106). -/
def State.putspFrom (n : Nat) (a : Word) (s : State) : State :=
  State.stringFrom putspEnds packedBytes .putsp n a s

/-- As many reads as there are addresses: a string loop meets its terminator or 0xFE00 within them. -/
def stringReads : Nat := 65536

/-- GETC (R101). -/
def State.serviceGetc (s : State) : State := s.awaitGetc

/-- OUT (R103). -/
def State.serviceOut (s : State) : State := s.conWrite (charByte (s.reg serviceReg))

/-- PUTS (R104). -/
def State.servicePuts (s : State) : State := State.putsFrom stringReads (s.reg serviceReg) s

/-- IN (R105). -/
def State.serviceIn (s : State) : State := (s.conWriteAll Config.inPrompt).awaitIn

/-- PUTSP (R106). -/
def State.servicePutsp (s : State) : State := State.putspFrom stringReads (s.reg serviceReg) s

/-- HALT (R107). -/
def State.serviceHalt (s : State) : State :=
  { s.conWriteAll Config.haltNotice with runState := .halted }

/-- The dispatcher's table (R100): the service of a vector, nothing for any other vector (R108). -/
def State.service (s : State) (vect : BitVec 8) : State :=
  if vect = 0x20 then s.serviceGetc
  else if vect = 0x21 then s.serviceOut
  else if vect = 0x22 then s.servicePuts
  else if vect = 0x23 then s.serviceIn
  else if vect = 0x24 then s.servicePutsp
  else if vect = 0x25 then s.serviceHalt
  else s

/-- A service in progress goes on (R102: a hold is lifted by a byte in `kbd_in`; R109). -/
def State.resume (s : State) : Pending → State
  | .getc => s.awaitGetc
  | .inRead => s.awaitIn
  | .puts a => State.putsFrom stringReads a s
  | .putsp a => State.putspFrom stringReads a s

end Sys2Proof.Machine
end

