-- ==== Sys2Proof/Machine/Trap.lean ====
section
/-! DEFINITION. TRAP and its rows, and the reserved opcodes (43_trap_reserved.md). `pc` on entry is the post-fetch
PC, and no meaning here changes it (R96). -/

namespace Sys2Proof.Machine

/-- TRAP (R100): the link write for every vector, then the dispatch. -/
def execTrap (vect : BitVec 8) (s : State) : Host.Outcome State Fault Refusal :=
  .next (s.link.service vect)

/-- TRAP x20, GETC (R100, R101). -/
def execTrapGetc (s : State) : Host.Outcome State Fault Refusal := .next s.link.serviceGetc

/-- TRAP x21, OUT (R100, R103). -/
def execTrapOut (s : State) : Host.Outcome State Fault Refusal := .next s.link.serviceOut

/-- TRAP x22, PUTS (R100, R104). -/
def execTrapPuts (s : State) : Host.Outcome State Fault Refusal := .next s.link.servicePuts

/-- TRAP x23, IN (R100, R105). -/
def execTrapIn (s : State) : Host.Outcome State Fault Refusal := .next s.link.serviceIn

/-- TRAP x24, PUTSP (R100, R106). -/
def execTrapPutsp (s : State) : Host.Outcome State Fault Refusal := .next s.link.servicePutsp

/-- TRAP x25, HALT (R100, R107). -/
def execTrapHalt (s : State) : Host.Outcome State Fault Refusal := .next s.link.serviceHalt

/-- TRAP with any other vector (R108): the link write, then nothing. -/
def execTrapOther (s : State) : Host.Outcome State Fault Refusal := .next s.link

/-- RTI, reserved (R110): it takes the exception FATAL. -/
def execRti (s : State) : Host.Outcome State Fault Refusal := .next (s.raiseFatal .rti)

/-- RES, reserved (R111): it takes the exception FATAL. -/
def execRes (s : State) : Host.Outcome State Fault Refusal := .next (s.raiseFatal .res)

end Sys2Proof.Machine
end

