-- ==== Sys2Proof/Machine/Dispatch.lean ====
section
/-! DEFINITION. The dispatch: one arm per instruction, run on the state after the fetch and the increment (R148). -/

namespace Sys2Proof.Machine

-- `Execute(d)` of R148. Don't-care fields are dropped here (R56).
def exec (i : Instr) (s : State) : Host.Outcome State Fault Refusal :=
  match i with
  | .br n z p off9 => Sys2Proof.Machine.execBr n z p off9 s
  | .addReg dr sr1 _ sr2 => Sys2Proof.Machine.execAddReg dr sr1 sr2 s
  | .addImm dr sr1 imm5 => Sys2Proof.Machine.execAddImm dr sr1 imm5 s
  | .ld dr off9 => Sys2Proof.Machine.execLd dr off9 s
  | .st sr off9 => Sys2Proof.Machine.execSt sr off9 s
  | .jsr off11 => Sys2Proof.Machine.execJsr off11 s
  | .jsrr _ base _ => Sys2Proof.Machine.execJsrr base s
  | .andReg dr sr1 _ sr2 => Sys2Proof.Machine.execAndReg dr sr1 sr2 s
  | .andImm dr sr1 imm5 => Sys2Proof.Machine.execAndImm dr sr1 imm5 s
  | .ldr dr base off6 => Sys2Proof.Machine.execLdr dr base off6 s
  | .str sr base off6 => Sys2Proof.Machine.execStr sr base off6 s
  | .rti _ => Sys2Proof.Machine.execRti s
  | .not dr sr1 _ => Sys2Proof.Machine.execNot dr sr1 s
  | .ldi dr off9 => Sys2Proof.Machine.execLdi dr off9 s
  | .sti sr off9 => Sys2Proof.Machine.execSti sr off9 s
  | .jmp _ base _ => Sys2Proof.Machine.execJmp base s
  | .res _ => Sys2Proof.Machine.execRes s
  | .lea dr off9 => Sys2Proof.Machine.execLea dr off9 s
  | .trap vect => Sys2Proof.Machine.execTrap vect s
  | .trapGetc _ => Sys2Proof.Machine.execTrapGetc s
  | .trapOut _ => Sys2Proof.Machine.execTrapOut s
  | .trapPuts _ => Sys2Proof.Machine.execTrapPuts s
  | .trapIn _ => Sys2Proof.Machine.execTrapIn s
  | .trapPutsp _ => Sys2Proof.Machine.execTrapPutsp s
  | .trapHalt _ => Sys2Proof.Machine.execTrapHalt s
  | .trapOther _ _ => Sys2Proof.Machine.execTrapOther s
  | .ret => Sys2Proof.Machine.execRet s
  | .nop => Sys2Proof.Machine.execNop s

end Sys2Proof.Machine
end

