-- ==== Sys2Proof/Machine/Step.lean ====
section
/-! DEFINITION. One step of the engine (R148). -/

namespace Sys2Proof.Machine

/-- `Step()` (R148): fetch, increment, decode, execute, while RUNNING; or, inside a service, its next part
(R102, R109; log entry 10). HALTED takes no step, so nothing changes (R107; log entry 15); FATAL is a fault that names
its cause (R120, R121; log entry 14). -/
def step (s : State) : Host.Outcome State Fault Refusal :=
  match s.runState with
  | .running =>
    match s.pending with
    | none => exec (decode s.fetch.1) s.fetch.2
    | some p => .next (s.resume p)
  | .halted => .next s
  | .fatal cause => .fault (.fatal cause)

/-- `s` with the instruction word stored at pc, the engine ready to fetch it. It stands for a load through the load port
(R6; log entry 18). -/
def State.withFetchWord (s : State) (nbits w : Nat) : State :=
  { s.setCell s.pc (BitVec.ofNat 16 (w % 2 ^ nbits)) with runState := .running, pending := none }

end Sys2Proof.Machine
end

