-- ==== Sys2Proof/Machine/Boot.lean ====
section
/-! DEFINITION. What the host does before reset release: image loading and the reset sequence (R140 to R146). -/

namespace Sys2Proof.Machine

/-- A big-endian pair of bytes as a word: the first byte is bits 15:8 (R143). -/
def beWord (hi lo : Byte) : Word := hi ++ lo

/-- The words of an image after its origin, from address `a` up (R144): a whole word must remain, and room in the
address space; a single trailing byte and anything past 0xFFFF are dropped (R145). -/
def Memory.loadWords (m : Memory) (a : Nat) : List Byte → Memory
  | hi :: lo :: rest =>
    if a ≤ 0xFFFF then Memory.loadWords (m.set a (beWord hi lo)) (a + 1) rest else m
  | [_] => m
  | [] => m

/-- `Load(b)` (R144): big-endian origin, then words. Fewer than two bytes load nothing (R145, D14). -/
def Memory.load (m : Memory) : List Byte → Memory
  | hi :: lo :: rest => m.loadWords (beWord hi lo).toNat rest
  | [_] => m
  | [] => m

/-- The reset sequence (R140): memory zeroed once, the images loaded in order, the register file initialised, RUNNING.
`kbd` is what the environment holds: reset does not touch it (R142). -/
def State.boot (images : List (List Byte)) (kbd : List Byte) : State :=
  { State.reset with mem := images.foldl Memory.load [], kbdIn := kbd }

end Sys2Proof.Machine
end

