-- ==== Sys2Proof/Machine/Environment.lean ====
section
/-! DEFINITION. The engine together with its console environment (R7). -/

namespace Sys2Proof.Machine

/-- A run under a schedule of arrivals (R7): the k-th batch is appended to `kbd_in` just before the k-th step. The run is
as long as the schedule, an empty batch being a step before which nothing arrives. -/
def State.runUnder (s : State) : List (List Byte) → Host.Outcome State Fault Refusal
  | [] => .next s
  | bs :: rest =>
    match step (s.arrive bs) with
    | .next t => t.runUnder rest
    | .fault r => .fault r
    | .refused r => .refused r

/-- The states a run can be in: released from reset with some images and some input pending (R140, R142), then steps and
arrivals in any order (R7). -/
inductive State.Reachable : State → Prop where
  | boot (images : List (List Byte)) (kbd : List Byte) : State.Reachable (State.boot images kbd)
  | arrive (s : State) (bs : List Byte) : State.Reachable s → State.Reachable (s.arrive bs)
  | step (s t : State) : State.Reachable s → step s = .next t → State.Reachable t

end Sys2Proof.Machine
end

