-- ==== Sys2Proof/Safety.lean ====
section
/-! DEFINITION. The terms claims use: the invariant, what an instruction may write, and the frames. -/

namespace Sys2Proof

open Sys2Proof.Machine

/-- Where a service in progress may stand between two steps: in `ConRead()` (R102), or before a read of 0xFE00. -/
def Machine.Pending.atConsole : Pending → Bool
  | .getc => true
  | .inRead => true
  | .puts a => a == kbsr
  | .putsp a => a == kbsr

/-- What holds at every step boundary: memory is canonical; only a RUNNING engine is inside a service (R16, R102); inside
one the link has been written and pc is still the post-fetch PC (R100, R102); and a service waits only where the console
decides how it goes on (log entries 10, 11). -/
def Machine.State.Inv (s : State) : Prop :=
  s.mem.wf = true ∧ (s.runState ≠ .running → s.pending = none) ∧
    (s.pending ≠ none → s.reg linkReg = s.pc) ∧ s.pending.all Pending.atConsole = true

/-- A run is safe so far: the engine is not in FATAL (U1). -/
def Machine.State.NotFatal (s : State) : Prop := ∀ c, s.runState ≠ .fatal c

/-- The registers an instruction may write (the table after R11). -/
def Instr.regsWritten : Instr → List RegIdx
  | .br _ _ _ _ => []
  | .addReg dr _ _ _ => [dr]
  | .addImm dr _ _ => [dr]
  | .ld dr _ => [dr]
  | .st _ _ => []
  | .jsr _ => [7]
  | .jsrr _ _ _ => [7]
  | .andReg dr _ _ _ => [dr]
  | .andImm dr _ _ => [dr]
  | .ldr dr _ _ => [dr]
  | .str _ _ _ => []
  | .rti _ => []
  | .not dr _ _ => [dr]
  | .ldi dr _ => [dr]
  | .sti _ _ => []
  | .jmp _ _ _ => []
  | .res _ => []
  | .lea dr _ => [dr]
  | .trap vect => if vect = 0x20 ∨ vect = 0x23 then [7, 0] else [7]
  | .trapGetc _ => [7, 0]
  | .trapOut _ => [7]
  | .trapPuts _ => [7]
  | .trapIn _ => [7, 0]
  | .trapPutsp _ => [7]
  | .trapHalt _ => [7]
  | .trapOther _ _ => [7]
  | .ret => []
  | .nop => []

/-- The register whose value `cond` is set from, for the instructions that call SetFlags (R15). -/
def Instr.flagTested : Instr → Option RegIdx
  | .br _ _ _ _ => none
  | .addReg dr _ _ _ => some dr
  | .addImm dr _ _ => some dr
  | .ld dr _ => some dr
  | .st _ _ => none
  | .jsr _ => none
  | .jsrr _ _ _ => none
  | .andReg dr _ _ _ => some dr
  | .andImm dr _ _ => some dr
  | .ldr dr _ _ => some dr
  | .str _ _ _ => none
  | .rti _ => none
  | .not dr _ _ => some dr
  | .ldi dr _ => some dr
  | .sti _ _ => none
  | .jmp _ _ _ => none
  | .res _ => none
  | .lea dr _ => some dr
  | .trap vect => if vect = 0x20 ∨ vect = 0x23 then some 0 else none
  | .trapGetc _ => some 0
  | .trapOut _ => none
  | .trapPuts _ => none
  | .trapIn _ => some 0
  | .trapPutsp _ => none
  | .trapHalt _ => none
  | .trapOther _ _ => none
  | .ret => none
  | .nop => none

/-- The instructions that change pc beyond the fetch increment (R96). -/
def Instr.transfers : Instr → Bool
  | .br _ _ _ _ => true
  | .jmp _ _ _ => true
  | .ret => true
  | .jsr _ => true
  | .jsrr _ _ _ => true
  | _ => false

/-- The instructions that store (R41). -/
def Instr.stores : Instr → Bool
  | .st _ _ => true
  | .sti _ _ => true
  | .str _ _ _ => true
  | _ => false

/-- The instructions that read 0xFE00 after their fetch, in the state after the fetch (R34, the table after R41): a load or
a string service at that address, LDI through a pointer there or to there, STI through a pointer there. -/
def Instr.readsKbsr : Instr → State → Bool
  | .br _ _ _ _, _ => false
  | .addReg _ _ _ _, _ => false
  | .addImm _ _ _, _ => false
  | .ld _ off9, s => s.pc + sext 9 (off9.setWidth 16) == 0xFE00
  | .st _ _, _ => false
  | .jsr _, _ => false
  | .jsrr _ _ _, _ => false
  | .andReg _ _ _ _, _ => false
  | .andImm _ _ _, _ => false
  | .ldr _ base off6, s => s.reg base + sext 6 (off6.setWidth 16) == 0xFE00
  | .str _ _ _, _ => false
  | .rti _, _ => false
  | .not _ _ _, _ => false
  | .ldi _ off9, s =>
    s.pc + sext 9 (off9.setWidth 16) == 0xFE00 || s.cell (s.pc + sext 9 (off9.setWidth 16)) == 0xFE00
  | .sti _ off9, s => s.pc + sext 9 (off9.setWidth 16) == 0xFE00
  | .jmp _ _ _, _ => false
  | .res _, _ => false
  | .lea _ _, _ => false
  | .trap vect, s => (vect == 0x22 || vect == 0x24) && s.reg 0 == 0xFE00
  | .trapGetc _, _ => false
  | .trapOut _, _ => false
  | .trapPuts _, s => s.reg 0 == 0xFE00
  | .trapIn _, _ => false
  | .trapPutsp _, s => s.reg 0 == 0xFE00
  | .trapHalt _, _ => false
  | .trapOther _ _, _ => false
  | .ret, _ => false
  | .nop, _ => false

/-- The registers a service in progress still writes (R101, R105). -/
def Machine.Pending.regsWritten : Pending → List RegIdx
  | .getc => [0]
  | .inRead => [0]
  | .puts _ => []
  | .putsp _ => []

/-- The register whose value a service in progress still sets `cond` from (R15). -/
def Machine.Pending.flagTested : Pending → Option RegIdx
  | .getc => some 0
  | .inRead => some 0
  | .puts _ => none
  | .putsp _ => none

/-- The services in progress that read 0xFE00 next. -/
def Machine.Pending.readsKbsr : Pending → Bool
  | .getc => false
  | .inRead => false
  | .puts a => a == 0xFE00
  | .putsp a => a == 0xFE00

/-- Every register outside `ds` is unchanged. -/
def Machine.State.RegsKept (ds : List RegIdx) (s t : State) : Prop := ∀ r, r ∉ ds → t.reg r = s.reg r

/-- Every cell of memory is unchanged. -/
def Machine.State.CellsKept (s t : State) : Prop := ∀ a, t.cell a = s.cell a

/-- The console is untouched: nothing consumed, nothing written. -/
def Machine.State.ConsoleKept (s t : State) : Prop := t.kbdIn = s.kbdIn ∧ t.conOut = s.conOut

/-- The run state and the service in progress are unchanged. -/
def Machine.State.EngineKept (s t : State) : Prop := t.runState = s.runState ∧ t.pending = s.pending

/-- What one `MemRead(a, 1)` made in `s` gives and leaves in `t` (R31, R32): the word `w`, the cells and the console. -/
def Machine.State.ReadEffect (a w : Word) (s t : State) : Prop :=
  t.conOut = s.conOut ∧
    if a = 0xFE00 then
      match s.kbdIn with
      | [] => w = 0x0000 ∧ t.kbdIn = [] ∧ ∀ b, t.cell b = if b = 0xFE00 then 0x0000 else s.cell b
      | c :: rest => w = 0x8000 ∧ t.kbdIn = rest ∧
          ∀ b, t.cell b = if b = 0xFE00 then 0x8000 else if b = 0xFE02 then c.setWidth 16 else s.cell b
    else w = s.cell a ∧ t.kbdIn = s.kbdIn ∧ ∀ b, t.cell b = s.cell b

/-- Memory where nothing is stored: what one read of 0xFE00 leaves if there is one, every cell kept otherwise. -/
def Machine.State.CellsPolled (reads : Bool) (s t : State) : Prop :=
  if reads then ∃ m, State.ReadEffect 0xFE00 (m.cell 0xFE00) s m ∧ State.CellsKept m t else State.CellsKept s t

/-- What a string service does from address `a` up to its end or its next wait (R34, R104, R106; log entry 11). `m` is memory
and console after the first read, which polls if `a` is 0xFE00. Then come `n` words that do not end the string, each sent
as `send` says, none of them at a later 0xFE00; and then either the terminator is read and the service is over, or the next
read is a later one of 0xFE00 and it waits. -/
def Machine.State.StringRun (ends : Word → Prop) (send : Word → List Byte) (wait : Pending) (a : Word) (s t : State) :
    Prop :=
  ∃ (m : State) (n : Nat), State.ReadEffect a (m.cell a) s m ∧
    (∀ k, k < n → ¬ ends (m.cell (a + BitVec.ofNat 16 k))) ∧
    (∀ k, k < n → k ≠ 0 → a + BitVec.ofNat 16 k ≠ 0xFE00) ∧
    t.conOut = s.conOut ++ (List.range n).flatMap (fun k => send (m.cell (a + BitVec.ofNat 16 k))) ∧
    t.kbdIn = m.kbdIn ∧ State.CellsKept m t ∧
    ((n = 0 ∨ a + BitVec.ofNat 16 n ≠ 0xFE00) ∧ ends (m.cell (a + BitVec.ofNat 16 n)) ∧ t.pending = none ∨
      n ≠ 0 ∧ a + BitVec.ofNat 16 n = 0xFE00 ∧ t.pending = some wait)

/-- PUTS from address `a` (R104): one byte a word, up to a whole word of zero. -/
def Machine.State.PutsRun (a : Word) (s t : State) : Prop :=
  State.StringRun (fun w => w = 0) (fun w => [charByte w]) (.puts 0xFE00) a s t

/-- PUTSP from address `a` (R106): the low byte, then the high byte unless it is zero, up to a zero low byte. -/
def Machine.State.PutspRun (a : Word) (s t : State) : Prop :=
  State.StringRun (fun w => w.extractLsb' 0 8 = 0#8)
    (fun w => if w.extractLsb' 8 8 = 0#8 then [w.extractLsb' 0 8] else [w.extractLsb' 0 8, w.extractLsb' 8 8])
    (.putsp 0xFE00) a s t

end Sys2Proof
end

