-- ==== Sys2Proof/Certificates/Slice0/Obligations.lean ====
section
/-! DEFINITION. The statements for the provers. Each docstring names the rule it formalises. -/

open Sys2Proof Sys2Proof.Machine

/-! ## Encoding -/

/-- Decoding the word of a well-formed instruction gives it back (R51, R54, R55). The opcode numbers and the register
field positions are the spec's decisions D1 and D2 (log entries 3, 4). -/
def Obligations.DecodeEncodeRoundTrip : Prop :=
  ∀ i : Instr, WellFormed i → decode (encode i) = i

/-- Every word decodes to a well-formed instruction, and no word loses a bit: encoding that instruction gives the word
(R50, R55; the row a word is read as where rows overlap is log entry 7). -/
def Obligations.EncodeDecodeRoundTrip : Prop :=
  ∀ w : Word, WellFormed (decode w) ∧ encode (decode w) = w

/-- The rows of opcode_table.json, word by word: a word that matches a row's match under its mask, and no row of higher
priority, decodes to the row's instruction with the row's fields (R51, R54, R55, R58). The last clause is the model's own
split, DESIGN CHOICE (log entry 7): the rows TRAP and TRAP__any_other_vector have one match, mask and priority, and a word of
theirs is read as TRAP where bits 11:8 are zero and as TRAP__any_other_vector where they are not. Every clause rests on the
opcode numbers, field positions and n, z, p order of the spec's decisions D1, D2, D3 (log entries 3, 4, 5, PRESUMED). -/
def Obligations.DecodeFollowsOpcodeTable : Prop :=
  ∀ w : Word,
    (w &&& 0xFFFF = 0x0000 → decode w = .nop) ∧
    (w &&& 0xFFFF = 0xC1C0 → decode w = .ret) ∧
    (w &&& 0xF000 = 0x0000 → w ≠ 0x0000 →
      decode w = .br (w.getLsbD 11) (w.getLsbD 10) (w.getLsbD 9) (w.extractLsb' 0 9)) ∧
    (w &&& 0xF020 = 0x1000 →
      decode w = .addReg (w.extractLsb' 9 3) (w.extractLsb' 6 3) (w.extractLsb' 3 2) (w.extractLsb' 0 3)) ∧
    (w &&& 0xF020 = 0x1020 →
      decode w = .addImm (w.extractLsb' 9 3) (w.extractLsb' 6 3) (w.extractLsb' 0 5)) ∧
    (w &&& 0xF000 = 0x2000 → decode w = .ld (w.extractLsb' 9 3) (w.extractLsb' 0 9)) ∧
    (w &&& 0xF000 = 0x3000 → decode w = .st (w.extractLsb' 9 3) (w.extractLsb' 0 9)) ∧
    (w &&& 0xF800 = 0x4800 → decode w = .jsr (w.extractLsb' 0 11)) ∧
    (w &&& 0xF800 = 0x4000 →
      decode w = .jsrr (w.extractLsb' 9 2) (w.extractLsb' 6 3) (w.extractLsb' 0 6)) ∧
    (w &&& 0xF020 = 0x5000 →
      decode w = .andReg (w.extractLsb' 9 3) (w.extractLsb' 6 3) (w.extractLsb' 3 2) (w.extractLsb' 0 3)) ∧
    (w &&& 0xF020 = 0x5020 →
      decode w = .andImm (w.extractLsb' 9 3) (w.extractLsb' 6 3) (w.extractLsb' 0 5)) ∧
    (w &&& 0xF000 = 0x6000 →
      decode w = .ldr (w.extractLsb' 9 3) (w.extractLsb' 6 3) (w.extractLsb' 0 6)) ∧
    (w &&& 0xF000 = 0x7000 →
      decode w = .str (w.extractLsb' 9 3) (w.extractLsb' 6 3) (w.extractLsb' 0 6)) ∧
    (w &&& 0xF000 = 0x8000 → decode w = .rti (w.extractLsb' 0 12)) ∧
    (w &&& 0xF000 = 0x9000 →
      decode w = .not (w.extractLsb' 9 3) (w.extractLsb' 6 3) (w.extractLsb' 0 6)) ∧
    (w &&& 0xF000 = 0xA000 → decode w = .ldi (w.extractLsb' 9 3) (w.extractLsb' 0 9)) ∧
    (w &&& 0xF000 = 0xB000 → decode w = .sti (w.extractLsb' 9 3) (w.extractLsb' 0 9)) ∧
    (w &&& 0xF000 = 0xC000 → w ≠ 0xC1C0 →
      decode w = .jmp (w.extractLsb' 9 3) (w.extractLsb' 6 3) (w.extractLsb' 0 6)) ∧
    (w &&& 0xF000 = 0xD000 → decode w = .res (w.extractLsb' 0 12)) ∧
    (w &&& 0xF000 = 0xE000 → decode w = .lea (w.extractLsb' 9 3) (w.extractLsb' 0 9)) ∧
    (w &&& 0xF0FF = 0xF020 → decode w = .trapGetc (w.extractLsb' 8 4)) ∧
    (w &&& 0xF0FF = 0xF021 → decode w = .trapOut (w.extractLsb' 8 4)) ∧
    (w &&& 0xF0FF = 0xF022 → decode w = .trapPuts (w.extractLsb' 8 4)) ∧
    (w &&& 0xF0FF = 0xF023 → decode w = .trapIn (w.extractLsb' 8 4)) ∧
    (w &&& 0xF0FF = 0xF024 → decode w = .trapPutsp (w.extractLsb' 8 4)) ∧
    (w &&& 0xF0FF = 0xF025 → decode w = .trapHalt (w.extractLsb' 8 4)) ∧
    (w &&& 0xF000 = 0xF000 → servedVector (w.extractLsb' 0 8) = false →
      decode w = if w.extractLsb' 8 4 = 0 then .trap (w.extractLsb' 0 8)
        else .trapOther (w.extractLsb' 8 4) (w.extractLsb' 0 8))

/-- Nine words of the spec's own text and examples: HALT, ADD register and immediate, LD, STR, BR, RET, JSR, RTI (R70, R71,
R80, R86, R90, R92, R93, R107, R110). They say only what opcode numbers and field positions a word has, which are the spec's
decisions D1, D2, D3 (log entries 3, 4, 5, PRESUMED). -/
def Obligations.SampleWordsDecode : Prop :=
  decode 0xF025 = .trapHalt 0 ∧ decode 0x1042 = .addReg 0 1 0 2 ∧ decode 0x103F = .addImm 0 0 0x1F ∧
    decode 0x25FD = .ld 2 0x1FD ∧ decode 0x7080 = .str 0 2 0 ∧ decode 0x03FD = .br false false true 0x1FD ∧
    decode 0xC1C0 = .ret ∧ decode 0x4805 = .jsr 5 ∧ decode 0x8000 = .rti 0

/-- A word executes like the same word with its don't-care bits at other values: ADD and AND register 4:3, NOT 5:0,
JMP 11:9 and 5:0, JSRR 10:9 and 5:0, TRAP 11:8, RTI and RES 11:0 (R56; the spec's decision D4, log entry 6). -/
def Obligations.DontCareBitsIgnored : Prop :=
  ∀ (v w : Word) (s : State),
    ((v &&& 0xF020 = 0x1000 ∨ v &&& 0xF020 = 0x5000) → v &&& 0xFFE7 = w &&& 0xFFE7 →
      exec (decode v) s = exec (decode w) s) ∧
    (v &&& 0xF000 = 0x9000 → v &&& 0xFFC0 = w &&& 0xFFC0 → exec (decode v) s = exec (decode w) s) ∧
    (v &&& 0xF000 = 0xC000 → v &&& 0xF1C0 = w &&& 0xF1C0 → exec (decode v) s = exec (decode w) s) ∧
    (v &&& 0xF800 = 0x4000 → v &&& 0xF9C0 = w &&& 0xF9C0 → exec (decode v) s = exec (decode w) s) ∧
    (v &&& 0xF000 = 0xF000 → v &&& 0xF0FF = w &&& 0xF0FF → exec (decode v) s = exec (decode w) s) ∧
    ((v &&& 0xF000 = 0x8000 ∨ v &&& 0xF000 = 0xD000) → v &&& 0xF000 = w &&& 0xF000 →
      exec (decode v) s = exec (decode w) s)

/-! ## The step, reset and boot -/

/-- A step of a RUNNING engine outside a service is the decoded instruction run on the state after the fetch: the word is
MemRead(pc), pc is incremented before anything uses it, and for pc other than 0xFE00 nothing else has changed (R148). -/
def Obligations.StepRunsDecodedInstruction : Prop :=
  ∀ s : State, s.runState = .running → s.pending = none →
    step s = exec (decode (s.memRead s.pc).1) { (s.memRead s.pc).2 with pc := s.pc + 1 } ∧
    (s.pc ≠ 0xFE00 → step s = exec (decode (s.cell s.pc)) { s with pc := s.pc + 1 })

/-- A fetch from 0xFE00 polls: with input pending it executes 0x8000, RTI, and the engine is FATAL; with none it executes
0x0000, a no-op, whatever was stored there (R34, R155). -/
def Obligations.FetchFromKbsrPolls : Prop :=
  ∀ s : State, s.runState = .running → s.pending = none → s.pc = 0xFE00 →
    ∃ t, step s = .next t ∧ t.pc = 0xFE01 ∧ State.RegsKept [] s t ∧ t.cond = s.cond ∧ t.pending = none ∧
      State.ReadEffect 0xFE00 (t.cell 0xFE00) s t ∧
      t.runState = if s.kbdIn = [] then .running else .fatal .rti

/-- The table of R22, whatever images are loaded and whatever input is pending: registers 0, pc 0x3000, cond Z, RUNNING, memory
zeroed and then loaded with the images in order, kbd_in not reset, con_out empty. With no image every cell is 0, and
State.reset is the boot with no image and no input: that its kbd_in is empty is the model's choice (log entry 17), since R22
has there whatever the environment holds. -/
def Obligations.ResetValues : Prop :=
  (∀ (images : List (List Byte)) (kbd : List Byte),
    (∀ r, (State.boot images kbd).reg r = 0x0000) ∧ (State.boot images kbd).pc = 0x3000 ∧
      (State.boot images kbd).cond = .zero ∧ (State.boot images kbd).runState = .running ∧
      (∀ a : Word, (State.boot images kbd).cell a = (images.foldl Memory.load []).get a.toNat) ∧
      (State.boot images kbd).kbdIn = kbd ∧ (State.boot images kbd).conOut = []) ∧
    State.reset = State.boot [] [] ∧ ∀ a, State.reset.cell a = 0x0000

/-- Execution starts at 0x3000 whatever images are loaded and wherever: the first step executes the word found there, and a
word 0x0000, which is there if nothing was loaded there, is a no-op (R141). -/
def Obligations.BootStartsAt3000 : Prop :=
  ∀ (images : List (List Byte)) (kbd : List Byte),
    step (State.boot images kbd) =
      exec (decode ((State.boot images kbd).cell 0x3000)) { State.boot images kbd with pc := 0x3001 } ∧
    ((State.boot images kbd).cell 0x3000 = 0x0000 →
      step (State.boot images kbd) = .next { State.boot images kbd with pc := 0x3001 })

/-- Loading an image: with an origin, word k is stored at origin + k, first byte in bits 15:8, as long as a whole word and
room in the address space remain, and every other cell keeps its value, so that a trailing single byte is stored nowhere;
an image of fewer than two bytes has no origin and loads nothing (R143, R144, R145; the trailing byte and the short image are
the spec's decision D14, log entry 18). -/
def Obligations.LoadStoresImageWords : Prop :=
  ∀ m : Memory,
    (∀ (hi lo : Byte) (b : List Byte),
      (∀ k, 2 * k + 1 < b.length → (hi ++ lo : Word).toNat + k ≤ 0xFFFF →
        (m.load (hi :: lo :: b)).get ((hi ++ lo : Word).toNat + k) =
          (b.getD (2 * k) 0 ++ b.getD (2 * k + 1) 0 : Word)) ∧
      (∀ a, (∀ k, 2 * k + 1 < b.length → (hi ++ lo : Word).toNat + k ≤ 0xFFFF → a ≠ (hi ++ lo : Word).toNat + k) →
        (m.load (hi :: lo :: b)).get a = m.get a)) ∧
    ∀ b : List Byte, b.length < 2 → m.load b = m

/-- Images are loaded in order into the same memory: a further image is loaded over what the earlier ones left, with no
zeroing between (R146). -/
def Obligations.LaterImageLoadsOverEarlier : Prop :=
  ∀ (images : List (List Byte)) (b kbd : List Byte),
    (State.boot [] kbd).mem = [] ∧
      (State.boot (images ++ [b]) kbd).mem = (State.boot images kbd).mem.load b

/-! ## Memory and the keyboard -/

/-- A store writes its cell, at every address, the keyboard cells among them, and changes nothing else (R35). -/
def Obligations.StoreWritesOneCell : Prop :=
  ∀ (s : State) (a v : Word),
    (∀ b, (s.memWrite a v).cell b = if b = a then v else s.cell b) ∧ State.RegsKept [] s (s.memWrite a v) ∧
      (s.memWrite a v).pc = s.pc ∧ (s.memWrite a v).cond = s.cond ∧ State.ConsoleKept s (s.memWrite a v) ∧
      State.EngineKept s (s.memWrite a v)

/-- MemRead: a read of 0xFE00 performs KeyboardPoll before the cell is read; a read of any other address, KBDR included, returns
the stored cell and has no side effect (R31). -/
def Obligations.MemReadPollsOnlyAtKbsr : Prop :=
  ∀ s : State, s.memRead 0xFE00 = (s.keyboardPoll.cell 0xFE00, s.keyboardPoll) ∧
    ∀ a : Word, a ≠ 0xFE00 → s.memRead a = (s.cell a, s)

/-- A read of 0xFE00 polls: with a character pending it is consumed, KBSR becomes 0x8000 and KBDR the character; with none
KBSR becomes 0 and KBDR is kept; the read returns the new KBSR, and the rest of the state is unchanged (R32; that the
character is consumed is the spec's decision D7, log entry 9). -/
def Obligations.KbsrReadPollsKeyboard : Prop :=
  ∀ s : State,
    State.ReadEffect 0xFE00 (s.memRead 0xFE00).1 s (s.memRead 0xFE00).2 ∧
      State.RegsKept [] s (s.memRead 0xFE00).2 ∧ (s.memRead 0xFE00).2.pc = s.pc ∧
      (s.memRead 0xFE00).2.cond = s.cond ∧ State.EngineKept s (s.memRead 0xFE00).2

/-- A stored word is what the next fetch from its address executes (R44). -/
def Obligations.StoreSeenByNextFetch : Prop :=
  ∀ (s : State) (v : Word), s.runState = .running → s.pending = none → s.pc ≠ 0xFE00 →
    ∃ t, State.CellsKept (s.memWrite s.pc v) t ∧ t.pc = s.pc + 1 ∧ State.RegsKept [] s t ∧ t.cond = s.cond ∧
      State.ConsoleKept s t ∧ State.EngineKept s t ∧ step (s.memWrite s.pc v) = exec (decode v) t

/-! ## Flags and immediates -/

/-- SetFlags: Z for 0, N where bit 15 is 1, else P, and nothing else changes (R15, first sentence). -/
def Obligations.SetFlagsBySign : Prop :=
  ∀ (s : State) (v : Word),
    (v = 0 → s.setFlags v = { s with cond := .zero }) ∧
      (v ≠ 0 → v.getLsbD 15 = true → s.setFlags v = { s with cond := .neg }) ∧
      (v ≠ 0 → v.getLsbD 15 = false → s.setFlags v = { s with cond := .pos })

/-- cond is changed by no instruction but ADD, AND, NOT, LD, LDI, LDR, LEA and the GETC and IN services (R15); nor by a step
inside a service, but the one that ends a GETC or an IN (log entry 10). -/
def Obligations.CondKeptByOthers : Prop :=
  (∀ (i : Instr) (s t : State), i.flagTested = none → exec i s = .next t → t.cond = s.cond) ∧
    ∀ (p : Pending) (s t : State), s.runState = .running → s.pending = some p → step s = .next t →
      p.flagTested = none ∨ t.pending ≠ none → t.cond = s.cond

/-- After a flag-updating operation that is complete, cond matches the sign and zero-ness of the register it wrote: Z, N or
P by that value (R15, R23). GETC and IN are complete when no service is in progress, at once or in a later step of the hold
(log entry 10). -/
def Obligations.CondMatchesWrittenRegister : Prop :=
  (∀ (i : Instr) (s t : State) (d : RegIdx), i.flagTested = some d → exec i s = .next t → t.pending = none →
    t.cond = if t.reg d = 0 then .zero else if (t.reg d).getLsbD 15 then .neg else .pos) ∧
  ∀ (p : Pending) (s t : State) (d : RegIdx), s.runState = .running → s.pending = some p → p.flagTested = some d →
    step s = .next t → t.pending = none →
    t.cond = if t.reg d = 0 then .zero else if (t.reg d).getLsbD 15 then .neg else .pos

/-- sext_N for N in 1 .. 16: the low N bits are kept, bits N .. 15 are copies of bit N-1, so higher bits of v are ignored
and sext_16 changes nothing (R53). -/
def Obligations.SignExtendCopiesSignBit : Prop :=
  ∀ (n : Nat) (v : Word) (k : Nat), 1 ≤ n → n ≤ 16 → k < 16 →
    (sext n v).getLsbD k = if k < n then v.getLsbD k else v.getLsbD (n - 1)

/-- An immediate or offset field stands for its two's-complement value, never scaled: -16..15, -32..31, -256..255,
-1024..1023 (R52). -/
def Obligations.FieldsAreSigned : Prop :=
  (∀ f : BitVec 5, (sextField f).toInt = f.toInt) ∧ (∀ f : BitVec 6, (sextField f).toInt = f.toInt) ∧
    (∀ f : BitVec 9, (sextField f).toInt = f.toInt) ∧ (∀ f : BitVec 11, (sextField f).toInt = f.toInt)

/-! ## Operate instructions -/

/-- ADD, register and immediate mode: both operands read first, the sum modulo 65536, cond from it, nothing else
(R70, R71, R75). -/
def Obligations.AddWraps : Prop :=
  ∀ (dr sr1 sr2 : RegIdx) (dc : BitVec 2) (imm5 : BitVec 5) (s : State),
    (∃ t, exec (.addReg dr sr1 dc sr2) s = .next t ∧
      (t.reg dr).toNat = ((s.reg sr1).toNat + (s.reg sr2).toNat) % 65536 ∧ t.cond = condOf (t.reg dr) ∧
      State.RegsKept [dr] s t ∧ t.pc = s.pc ∧ State.CellsKept s t ∧ State.ConsoleKept s t ∧ State.EngineKept s t) ∧
    (∃ t, exec (.addImm dr sr1 imm5) s = .next t ∧
      (t.reg dr).toNat = ((s.reg sr1).toNat + (sext 5 (imm5.setWidth 16)).toNat) % 65536 ∧
      t.cond = condOf (t.reg dr) ∧ State.RegsKept [dr] s t ∧ t.pc = s.pc ∧ State.CellsKept s t ∧
      State.ConsoleKept s t ∧ State.EngineKept s t)

/-- AND, register and immediate mode: bitwise on all 16 bits, the immediate sign-extended before the AND, cond from the
result, nothing else (R72, R73). -/
def Obligations.AndIsBitwise : Prop :=
  ∀ (dr sr1 sr2 : RegIdx) (dc : BitVec 2) (imm5 : BitVec 5) (s : State),
    (∃ t, exec (.andReg dr sr1 dc sr2) s = .next t ∧
      (∀ k, (t.reg dr).getLsbD k = ((s.reg sr1).getLsbD k && (s.reg sr2).getLsbD k)) ∧ t.cond = condOf (t.reg dr) ∧
      State.RegsKept [dr] s t ∧ t.pc = s.pc ∧ State.CellsKept s t ∧ State.ConsoleKept s t ∧ State.EngineKept s t) ∧
    (∃ t, exec (.andImm dr sr1 imm5) s = .next t ∧
      (∀ k, (t.reg dr).getLsbD k = ((s.reg sr1).getLsbD k && (sext 5 (imm5.setWidth 16)).getLsbD k)) ∧
      t.cond = condOf (t.reg dr) ∧ State.RegsKept [dr] s t ∧ t.pc = s.pc ∧ State.CellsKept s t ∧
      State.ConsoleKept s t ∧ State.EngineKept s t)

/-- NOT (R74): the complement of all 16 bits. -/
def Obligations.NotComplements : Prop :=
  ∀ (dr sr1 : RegIdx) (dc : BitVec 6) (s : State), ∃ t, exec (.not dr sr1 dc) s = .next t ∧
    (∀ k, k < 16 → (t.reg dr).getLsbD k = !(s.reg sr1).getLsbD k) ∧ t.cond = condOf (t.reg dr) ∧
    State.RegsKept [dr] s t ∧ t.pc = s.pc ∧ State.CellsKept s t ∧ State.ConsoleKept s t ∧ State.EngineKept s t

/-- ADD and AND in immediate mode and in register mode agree when the register operand equals the immediate's value (R71, R73). -/
def Obligations.ImmediateAgreesWithRegister : Prop :=
  ∀ (dr sr1 sr2 : RegIdx) (dc : BitVec 2) (imm5 : BitVec 5) (s : State), s.reg sr2 = imm5.signExtend 16 →
    exec (.addImm dr sr1 imm5) s = exec (.addReg dr sr1 dc sr2) s ∧
      exec (.andImm dr sr1 imm5) s = exec (.andReg dr sr1 dc sr2) s

/-! ## Data movement -/

/-- LD (R80): the word MemRead gives at post-fetch pc + sext_9(PCoffset9). -/
def Obligations.LdLoads : Prop :=
  ∀ (dr : RegIdx) (off9 : BitVec 9) (s : State), ∃ t, exec (.ld dr off9) s = .next t ∧
    State.ReadEffect (s.pc + sext 9 (off9.setWidth 16)) (t.reg dr) s t ∧ t.cond = condOf (t.reg dr) ∧
    State.RegsKept [dr] s t ∧ t.pc = s.pc ∧ State.EngineKept s t

/-- LDI (R81): the pointer is read, then the data at it; each read polls if its address is 0xFE00. `m` is the memory and
console between the two reads, `p` the pointer. -/
def Obligations.LdiLoadsIndirect : Prop :=
  ∀ (dr : RegIdx) (off9 : BitVec 9) (s : State), ∃ t m p, exec (.ldi dr off9) s = .next t ∧
    State.ReadEffect (s.pc + sext 9 (off9.setWidth 16)) p s m ∧ State.ReadEffect p (t.reg dr) m t ∧
    t.cond = condOf (t.reg dr) ∧ State.RegsKept [dr] s t ∧ t.pc = s.pc ∧ State.EngineKept s t

/-- LDR (R82): the word at x[BaseR] + sext_6(offset6), the base as it was before DR is written. -/
def Obligations.LdrLoads : Prop :=
  ∀ (dr base : RegIdx) (off6 : BitVec 6) (s : State), ∃ t, exec (.ldr dr base off6) s = .next t ∧
    State.ReadEffect (s.reg base + sext 6 (off6.setWidth 16)) (t.reg dr) s t ∧ t.cond = condOf (t.reg dr) ∧
    State.RegsKept [dr] s t ∧ t.pc = s.pc ∧ State.EngineKept s t

/-- LEA (R83): the address itself; cond is set and no memory is accessed, 0xFE00 included. -/
def Obligations.LeaLoadsAddress : Prop :=
  ∀ (dr : RegIdx) (off9 : BitVec 9) (s : State), ∃ t, exec (.lea dr off9) s = .next t ∧
    t.reg dr = s.pc + sext 9 (off9.setWidth 16) ∧ t.cond = condOf (t.reg dr) ∧
    State.RegsKept [dr] s t ∧ t.pc = s.pc ∧ State.CellsKept s t ∧ State.ConsoleKept s t ∧ State.EngineKept s t

/-- ST (R84): x[SR] is stored at post-fetch pc + sext_9(PCoffset9), and nothing else changes. -/
def Obligations.StStores : Prop :=
  ∀ (sr : RegIdx) (off9 : BitVec 9) (s : State), ∃ t, exec (.st sr off9) s = .next t ∧
    (∀ a, t.cell a = if a = s.pc + sext 9 (off9.setWidth 16) then s.reg sr else s.cell a) ∧
    State.RegsKept [] s t ∧ t.cond = s.cond ∧ t.pc = s.pc ∧ State.ConsoleKept s t ∧ State.EngineKept s t

/-- STI (R85): the pointer is read, polling if it is at 0xFE00, then x[SR] is stored at it. `m` is the memory and console
after the read, `p` the pointer. -/
def Obligations.StiStoresIndirect : Prop :=
  ∀ (sr : RegIdx) (off9 : BitVec 9) (s : State), ∃ t m p, exec (.sti sr off9) s = .next t ∧
    State.ReadEffect (s.pc + sext 9 (off9.setWidth 16)) p s m ∧
    (∀ a, t.cell a = if a = p then s.reg sr else m.cell a) ∧ State.ConsoleKept m t ∧
    State.RegsKept [] s t ∧ t.cond = s.cond ∧ t.pc = s.pc ∧ State.EngineKept s t

/-- STR (R86): x[SR] is stored at x[BaseR] + sext_6(offset6), and nothing else changes. -/
def Obligations.StrStores : Prop :=
  ∀ (sr base : RegIdx) (off6 : BitVec 6) (s : State), ∃ t, exec (.str sr base off6) s = .next t ∧
    (∀ a, t.cell a = if a = s.reg base + sext 6 (off6.setWidth 16) then s.reg sr else s.cell a) ∧
    State.RegsKept [] s t ∧ t.cond = s.cond ∧ t.pc = s.pc ∧ State.ConsoleKept s t ∧ State.EngineKept s t

/-! ## Control transfer -/

/-- BR (R90): taken exactly when the bit of the flag held is set, to post-fetch pc + sext_9(PCoffset9); else pc stays. NOP
is BR with no condition bit. Only pc changes. That n, z, p are bits 11, 10, 9 is the spec's decision D3 (log entry 5). -/
def Obligations.BrBranchesOnCond : Prop :=
  ∀ (n z p : Bool) (off9 : BitVec 9) (s : State),
    exec (.br n z p off9) s =
      .next (s.setPc (if (n = true ∧ s.cond = .neg) ∨ (z = true ∧ s.cond = .zero) ∨ (p = true ∧ s.cond = .pos)
        then s.pc + sext 9 (off9.setWidth 16) else s.pc)) ∧
    exec .nop s = .next s ∧ exec (.br false false false off9) s = .next s

/-- With cond held as N = 0b100, Z = 0b010, P = 0b001, a branch is taken exactly when (cond AND instr[11:9]) is not 0
(R14, R90; D3, log entry 5). -/
def Obligations.BrTestIsMask : Prop :=
  ∀ (w : Word) (s : State), w &&& 0xF000 = 0x0000 →
    exec (decode w) s =
      .next (s.setPc (if s.cond.bits &&& w.extractLsb' 9 3 ≠ 0 then s.pc + sext 9 w else s.pc))

/-- JMP (R92): pc is x[BaseR]; RET is JMP through x[7]; nothing else changes, x[7] included. -/
def Obligations.JmpJumps : Prop :=
  ∀ (dcHi : BitVec 3) (base : RegIdx) (dcLo : BitVec 6) (s : State),
    exec (.jmp dcHi base dcLo) s = .next { s with pc := s.reg base } ∧
      exec .ret s = .next { s with pc := s.reg 7 }

/-- JSR (R93): x[7] gets the post-fetch PC, pc the post-fetch PC + sext_11(PCoffset11); cond and the rest are unchanged. -/
def Obligations.JsrLinksAndJumps : Prop :=
  ∀ (off11 : BitVec 11) (s : State), ∃ t, exec (.jsr off11) s = .next t ∧ t.reg 7 = s.pc ∧
    t.pc = s.pc + sext 11 (off11.setWidth 16) ∧ State.RegsKept [7] s t ∧ t.cond = s.cond ∧
    State.CellsKept s t ∧ State.ConsoleKept s t ∧ State.EngineKept s t

/-- JSRR (R94): the link is written first, then pc is x[BaseR]; with BaseR = 7 that is the link just written (the spec's
decision D19, log entry 19). -/
def Obligations.JsrrLinksThenReads : Prop :=
  ∀ (dcHi : BitVec 2) (base : RegIdx) (dcLo : BitVec 6) (s : State), ∃ t, exec (.jsrr dcHi base dcLo) s = .next t ∧
    t.reg 7 = s.pc ∧ t.pc = (if base = 7 then s.pc else s.reg base) ∧ State.RegsKept [7] s t ∧ t.cond = s.cond ∧
    State.CellsKept s t ∧ State.ConsoleKept s t ∧ State.EngineKept s t

/-! ## TRAP and its services -/

/-- TRAP (R100): every word with opcode 0xF does what TRAP does with the vector in bits 7:0, whatever its bits 11:8 (D4, log entry
6); x[7] gets the post-fetch PC for every vector, pc is not changed, and the vector selects the service: each of the six vectors
does what its own row does, every other one nothing more. -/
def Obligations.TrapDispatches : Prop :=
  (∀ (w : Word) (s : State), w &&& 0xF000 = 0xF000 → exec (decode w) s = exec (.trap (w.extractLsb' 0 8)) s) ∧
  ∀ (vect : BitVec 8) (s : State), ∃ t, exec (.trap vect) s = .next t ∧ t.reg 7 = s.pc ∧ t.pc = s.pc ∧
    (vect = 0x20 → exec (.trapGetc 0) s = .next t) ∧ (vect = 0x21 → exec (.trapOut 0) s = .next t) ∧
    (vect = 0x22 → exec (.trapPuts 0) s = .next t) ∧ (vect = 0x23 → exec (.trapIn 0) s = .next t) ∧
    (vect = 0x24 → exec (.trapPutsp 0) s = .next t) ∧ (vect = 0x25 → exec (.trapHalt 0) s = .next t) ∧
    (servedVector vect = false → exec (.trapOther 0 vect) s = .next t)

/-- TRAP with a vector no service has (R108): the link write, then nothing. -/
def Obligations.OtherVectorOnlyLinks : Prop :=
  ∀ (vect : BitVec 8) (dc : BitVec 4) (s : State), servedVector vect = false →
    ∃ t, exec (.trapOther dc vect) s = .next t ∧ exec (.trap vect) s = .next t ∧ t.reg 7 = s.pc ∧
      State.RegsKept [7] s t ∧ t.cond = s.cond ∧ t.pc = s.pc ∧ State.CellsKept s t ∧ State.ConsoleKept s t ∧
      State.EngineKept s t

/-- GETC with input pending (R101): the head of the queue is taken, x[0] is its code zero-extended, cond is Z for 0x00 and P
otherwise, nothing is echoed, KBSR and KBDR are not touched. -/
def Obligations.GetcTakesCharacter : Prop :=
  ∀ (dc : BitVec 4) (s : State) (c : Byte) (rest : List Byte), s.kbdIn = c :: rest →
    ∃ t, exec (.trapGetc dc) s = .next t ∧ t.reg 7 = s.pc ∧ t.reg 0 = c.setWidth 16 ∧
      t.cond = (if c = 0 then .zero else .pos) ∧ t.kbdIn = rest ∧ t.conOut = s.conOut ∧
      State.RegsKept [7, 0] s t ∧ t.pc = s.pc ∧ State.CellsKept s t ∧ t.runState = s.runState ∧ t.pending = none

/-- IN with input pending (R105): the prompt, then one character taken, echoed and put into x[0], cond from it. The prompt is
the parameter IN_PROMPT (log entry 13). -/
def Obligations.InPromptsAndEchoes : Prop :=
  ∀ (dc : BitVec 4) (s : State) (c : Byte) (rest : List Byte), s.kbdIn = c :: rest →
    ∃ t, exec (.trapIn dc) s = .next t ∧ t.reg 7 = s.pc ∧ t.reg 0 = c.setWidth 16 ∧
      t.cond = (if c = 0 then .zero else .pos) ∧ t.kbdIn = rest ∧ t.conOut = s.conOut ++ Config.inPrompt ++ [c] ∧
      State.RegsKept [7, 0] s t ∧ t.pc = s.pc ∧ State.CellsKept s t ∧ t.runState = s.runState ∧ t.pending = none

/-- GETC and IN with no input hold (R102): the link write and IN's prompt have happened, nothing else has, and a step of the
holding engine makes no progress while no byte arrives. -/
def Obligations.NoInputHolds : Prop :=
  ∀ (dc : BitVec 4) (s : State), s.kbdIn = [] →
    (∃ t, exec (.trapGetc dc) s = .next t ∧ t.reg 7 = s.pc ∧ t.pending = some .getc ∧ t.conOut = s.conOut ∧
      t.kbdIn = [] ∧ State.RegsKept [7] s t ∧ t.cond = s.cond ∧ t.pc = s.pc ∧ State.CellsKept s t ∧
      t.runState = s.runState ∧ (s.runState = .running → step t = .next t)) ∧
    (∃ t, exec (.trapIn dc) s = .next t ∧ t.reg 7 = s.pc ∧ t.pending = some .inRead ∧
      t.conOut = s.conOut ++ Config.inPrompt ∧ t.kbdIn = [] ∧ State.RegsKept [7] s t ∧ t.cond = s.cond ∧
      t.pc = s.pc ∧ State.CellsKept s t ∧ t.runState = s.runState ∧ (s.runState = .running → step t = .next t))

/-- The hold is invisible to the program (R102): holding, then receiving a byte and taking one more step, ends in the same
state as having had the input from the start. The hold is the spec's decision D8 (log entry 10). -/
def Obligations.HoldIsTransparent : Prop :=
  ∀ (dc : BitVec 4) (s h : State) (c : Byte) (bs : List Byte), s.runState = .running → s.kbdIn = [] →
    (exec (.trapGetc dc) s = .next h → step (h.arrive (c :: bs)) = exec (.trapGetc dc) (s.arrive (c :: bs))) ∧
      (exec (.trapIn dc) s = .next h → step (h.arrive (c :: bs)) = exec (.trapIn dc) (s.arrive (c :: bs)))

/-- OUT (R103): one byte is written, the character in x[0], and only x[7] changes besides. The byte is x[0]'s value for every
value up to 0x00FF; above that no claim is made of it (C3, U5; log entry 12). -/
def Obligations.OutWritesCharacter : Prop :=
  ∀ (dc : BitVec 4) (s : State), ∃ t b, exec (.trapOut dc) s = .next t ∧ t.conOut = s.conOut ++ [b] ∧
    ((s.reg 0).toNat ≤ 0x00FF → b.toNat = (s.reg 0).toNat) ∧ t.kbdIn = s.kbdIn ∧ t.reg 7 = s.pc ∧
    State.RegsKept [7] s t ∧ t.cond = s.cond ∧ t.pc = s.pc ∧ State.CellsKept s t ∧ State.EngineKept s t

/-- PUTS, any string (R104, R34): one byte per word up to the first zero word, which is not written; addresses wrap; x[0] is
not advanced. `m` is memory and console after the first read, which polls if x[0] is 0xFE00. After n words comes either the
terminator, and the service is over, or a later read of 0xFE00, before which it waits with those n bytes written (D10, log entry
11). The byte of a word is the word's value up to 0x00FF, where both readings of C3 agree, and `charByte` of it above (log
entry 12). -/
def Obligations.PutsWritesString : Prop :=
  ∀ (dc : BitVec 4) (s m : State) (n : Nat), State.ReadEffect (s.reg 0) (m.cell (s.reg 0)) s m →
    (∀ k, k < n → k ≠ 0 → s.reg 0 + BitVec.ofNat 16 k ≠ 0xFE00) →
    (∀ k, k < n → m.cell (s.reg 0 + BitVec.ofNat 16 k) ≠ 0) →
    (¬ (n ≠ 0 ∧ s.reg 0 + BitVec.ofNat 16 n = 0xFE00) → m.cell (s.reg 0 + BitVec.ofNat 16 n) = 0) →
    ∃ t, exec (.trapPuts dc) s = .next t ∧
      t.conOut = s.conOut ++ (List.range n).map (fun k => charByte (m.cell (s.reg 0 + BitVec.ofNat 16 k))) ∧
      (∀ k, k < n → (m.cell (s.reg 0 + BitVec.ofNat 16 k)).toNat ≤ 0x00FF →
        (t.conOut.getD (s.conOut.length + k) 0).toNat = (m.cell (s.reg 0 + BitVec.ofNat 16 k)).toNat) ∧
      t.kbdIn = m.kbdIn ∧ t.reg 7 = s.pc ∧ State.RegsKept [7] s t ∧ t.cond = s.cond ∧ t.pc = s.pc ∧
      State.CellsKept m t ∧ t.runState = s.runState ∧
      t.pending = if n ≠ 0 ∧ s.reg 0 + BitVec.ofNat 16 n = 0xFE00 then some (.puts 0xFE00) else none

/-- PUTSP, any string (R106, R34): per word the low byte, then the high byte unless it is zero; the first word with a zero low
byte ends it and is not written, whatever its high byte. `m` is memory and console after the first read, which polls if x[0] is
0xFE00. After n words comes either the terminator, and the service is over, or a later read of 0xFE00, before which it waits
with the bytes of those n words written (D10, log entry 11). -/
def Obligations.PutspWritesString : Prop :=
  ∀ (dc : BitVec 4) (s m : State) (n : Nat), State.ReadEffect (s.reg 0) (m.cell (s.reg 0)) s m →
    (∀ k, k < n → k ≠ 0 → s.reg 0 + BitVec.ofNat 16 k ≠ 0xFE00) →
    (∀ k, k < n → (m.cell (s.reg 0 + BitVec.ofNat 16 k)).extractLsb' 0 8 ≠ 0#8) →
    (¬ (n ≠ 0 ∧ s.reg 0 + BitVec.ofNat 16 n = 0xFE00) →
      (m.cell (s.reg 0 + BitVec.ofNat 16 n)).extractLsb' 0 8 = 0#8) →
    ∃ t, exec (.trapPutsp dc) s = .next t ∧
      t.conOut = s.conOut ++ (List.range n).flatMap (fun k =>
        if (m.cell (s.reg 0 + BitVec.ofNat 16 k)).extractLsb' 8 8 = 0#8
        then [(m.cell (s.reg 0 + BitVec.ofNat 16 k)).extractLsb' 0 8]
        else [(m.cell (s.reg 0 + BitVec.ofNat 16 k)).extractLsb' 0 8,
          (m.cell (s.reg 0 + BitVec.ofNat 16 k)).extractLsb' 8 8]) ∧
      t.kbdIn = m.kbdIn ∧ t.reg 7 = s.pc ∧ State.RegsKept [7] s t ∧ t.cond = s.cond ∧ t.pc = s.pc ∧
      State.CellsKept m t ∧ t.runState = s.runState ∧
      t.pending = if n ≠ 0 ∧ s.reg 0 + BitVec.ofNat 16 n = 0xFE00 then some (.putsp 0xFE00) else none

/-- PUTS and PUTSP in every state, x[0] = 0xFE00 and a string that meets 0xFE00 among them: they answer a next state, which is
what the run of the string from x[0] leaves (the bytes of the words read, the poll, and the end or the wait), x[7] gets the
post-fetch PC, and besides the console only KBSR and KBDR can have changed (R34, R104, R106; D10, log entry 11). The byte PUTS
sends for a word above 0x00FF is `charByte` of it, the spec's decision D9 (C3, U5; log entry 12, DESIGN CHOICE). -/
def Obligations.StringServicesFrame : Prop :=
  ∀ (dc : BitVec 4) (s : State),
    (∃ t, exec (.trapPuts dc) s = .next t ∧ State.PutsRun (s.reg 0) s t ∧ t.reg 7 = s.pc ∧ State.RegsKept [7] s t ∧
      t.cond = s.cond ∧ t.pc = s.pc ∧ t.runState = s.runState ∧
      (∀ a, a ≠ 0xFE00 → a ≠ 0xFE02 → t.cell a = s.cell a)) ∧
    (∃ t, exec (.trapPutsp dc) s = .next t ∧ State.PutspRun (s.reg 0) s t ∧ t.reg 7 = s.pc ∧
      State.RegsKept [7] s t ∧ t.cond = s.cond ∧ t.pc = s.pc ∧ t.runState = s.runState ∧
      (∀ a, a ≠ 0xFE00 → a ≠ 0xFE02 → t.cell a = s.cell a))

/-- A string service that waits goes on in the next step, whatever string follows: what the run of the string from there
leaves, with nothing else changed (R34, R104, R106; D10, log entry 11). Where it stands before 0xFE00 the poll decides: PUTSP
ends there, since both polled words have a zero low byte; PUTS ends there with no input pending, and with one sends one byte for
the word 0x8000 and goes on at 0xFE01, here also written out for a string of n more words before the terminator. The byte sent
for a word above 0x00FF, 0x8000 among them, is `charByte` of it, the spec's decision D9 (C3, U5; log entry 12, DESIGN CHOICE). -/
def Obligations.StringServiceResumesAtKbsr : Prop :=
  ∀ s : State, s.runState = .running →
    (∀ a, s.pending = some (.puts a) → ∃ t, step s = .next t ∧ State.PutsRun a s t ∧ State.RegsKept [] s t ∧
      t.pc = s.pc ∧ t.cond = s.cond ∧ t.runState = .running) ∧
    (∀ a, s.pending = some (.putsp a) → ∃ t, step s = .next t ∧ State.PutspRun a s t ∧ State.RegsKept [] s t ∧
      t.pc = s.pc ∧ t.cond = s.cond ∧ t.runState = .running) ∧
    (s.pending = some (.putsp 0xFE00) → ∃ t, step s = .next t ∧ t.pending = none ∧
      State.ReadEffect 0xFE00 (t.cell 0xFE00) s t) ∧
    (s.pending = some (.puts 0xFE00) → s.kbdIn = [] → ∃ t, step s = .next t ∧ t.pending = none ∧
      State.ReadEffect 0xFE00 0x0000 s t) ∧
    (∀ c rest n (post : Word → Word), s.pending = some (.puts 0xFE00) → s.kbdIn = c :: rest →
      post = (fun b => if b = 0xFE00 then 0x8000 else if b = 0xFE02 then c.setWidth 16 else s.cell b) →
      (∀ k, k ≤ n → 0xFE01 + BitVec.ofNat 16 k ≠ 0xFE00) →
      (∀ k, k < n → post (0xFE01 + BitVec.ofNat 16 k) ≠ 0) → post (0xFE01 + BitVec.ofNat 16 n) = 0 →
      ∃ t, step s = .next t ∧ t.pending = none ∧ t.kbdIn = rest ∧ (∀ b, t.cell b = post b) ∧
        t.conOut = s.conOut ++ charByte 0x8000 ::
          (List.range n).map (fun k => charByte (post (0xFE01 + BitVec.ofNat 16 k))))

/-- HALT (R107): the notice, then HALTED; x[7] gets the post-fetch PC, pc stays there, all else keeps its value. The notice is
the parameter HALT_NOTICE (log entry 13). -/
def Obligations.HaltStops : Prop :=
  ∀ (dc : BitVec 4) (s : State), ∃ t, exec (.trapHalt dc) s = .next t ∧ t.runState = .halted ∧
    t.conOut = s.conOut ++ Config.haltNotice ∧ t.kbdIn = s.kbdIn ∧ t.reg 7 = s.pc ∧ State.RegsKept [7] s t ∧
    t.cond = s.cond ∧ t.pc = s.pc ∧ State.CellsKept s t ∧ t.pending = s.pending

/-- RTI and RES raise Fatal: the run state becomes FATAL and nothing else changes, pc post-fetch included, and no further step
answers a next state (R110, R111, R120). That FATAL carries the cause, and that a step in FATAL is answered with a fault, is the
model's choice (log entry 14, DESIGN CHOICE; D16). -/
def Obligations.ReservedOpcodesAreFatal : Prop :=
  ∀ (dc : BitVec 12) (s : State),
    exec (.rti dc) s = .next { s with runState := .fatal .rti } ∧
      exec (.res dc) s = .next { s with runState := .fatal .res } ∧
      ∀ c u, step { s with runState := .fatal c } ≠ .next u

/-! ## The whole machine -/

/-- HALTED and FATAL are terminal (R16): a step leaves a HALTED engine as it is, and in FATAL it answers the fault that names
the cause. How a step of a stopped engine is answered is the model's choice (log entries 14, 15). -/
def Obligations.TerminalStatesStay : Prop :=
  ∀ s : State, (s.runState = .halted → step s = .next s) ∧
    ∀ c, s.runState = .fatal c → step s = .fault (.fatal c)

/-- The run state changes by HALT to HALTED, by RTI and RES to FATAL, and by nothing else, a step inside a service included
(R16; that FATAL carries the cause is log entry 14, that a service takes several steps log entry 10). -/
def Obligations.RunStateTransitions : Prop :=
  (∀ (i : Instr) (s t : State), exec i s = .next t →
    t.runState = match i with
      | .rti _ => .fatal .rti
      | .res _ => .fatal .res
      | .trapHalt _ => .halted
      | .trap vect => if vect = 0x25 then .halted else s.runState
      | _ => s.runState) ∧
  ∀ (p : Pending) (s t : State), s.runState = .running → s.pending = some p → step s = .next t → t.runState = .running

/-- pc is changed beyond the fetch increment by no instruction but BR, JMP, JSR and JSRR (R96), nor by a step inside a service
(log entry 10). -/
def Obligations.PcChangedOnlyByTransfers : Prop :=
  (∀ (i : Instr) (s t : State), i.transfers = false → exec i s = .next t → t.pc = s.pc) ∧
    ∀ (p : Pending) (s t : State), s.runState = .running → s.pending = some p → step s = .next t → t.pc = s.pc

/-- An instruction writes no general register but its destination and, for JSR, JSRR and TRAP, x[7] and, for GETC and IN,
x[0]; a step inside a service none but, for GETC and IN, x[0] (R10, R11, the table of register access; log entry 10). -/
def Obligations.RegistersChangedOnlyAsListed : Prop :=
  (∀ (i : Instr) (s t : State), exec i s = .next t → State.RegsKept i.regsWritten s t) ∧
    ∀ (p : Pending) (s t : State), s.runState = .running → s.pending = some p → step s = .next t →
      State.RegsKept p.regsWritten s t

/-- Memory is changed only by ST, STI and STR and by the keyboard handler (R32, R42): an instruction that does not store, and a
step inside a service, keeps every cell, unless it reads 0xFE00, and then every cell is as that one read leaves it: KBSR and KBDR
as the poll sets them and every other one kept. That a service has steps of its own is the model's choice (log entry 10, DESIGN
CHOICE), and so is the cut by which PUTS and PUTSP poll in the TRAP's own step only where x[0] is 0xFE00 (log entry 11, DESIGN
CHOICE): a string that runs on to 0xFE00 waits there, and the poll belongs to the step that goes on. -/
def Obligations.MemoryChangedOnlyByStoresAndHandler : Prop :=
  (∀ (i : Instr) (s t : State), i.stores = false → exec i s = .next t → State.CellsPolled (i.readsKbsr s) s t) ∧
    ∀ (p : Pending) (s t : State), s.runState = .running → s.pending = some p → step s = .next t →
      State.CellsPolled p.readsKbsr s t

/-- Every instruction completes in every state (R122, R131): it answers a next state, never a fault or a refusal, and a RUNNING
engine's step does too, in a service or not. A hold is a next state in which the service waits (log entry 10), and FATAL is
entered as a next state (log entry 14). -/
def Obligations.EveryInstructionCompletes : Prop :=
  (∀ (i : Instr) (s : State), ∃ t, exec i s = .next t) ∧
    ∀ s : State, s.runState = .running → ∃ t, step s = .next t

/-- The console's streams: a step only appends to con_out and only takes from the head of kbd_in (R7). -/
def Obligations.ConsoleStreamsInOrder : Prop :=
  ∀ s t : State, step s = .next t → s.conOut <+: t.conOut ∧ t.kbdIn <:+ s.kbdIn

/-- Every step keeps the invariant: memory canonical, only a RUNNING engine inside a service, the link written and pc kept there,
and a service waiting only in ConRead() or before 0xFE00 (R16, R17, R100, R102; log entries 1, 10, 11). -/
def Obligations.StepKeepsInvariant : Prop :=
  ∀ s t : State, s.Inv → step s = .next t → t.Inv

/-- The invariant holds at reset (R17, R22; that no service is in progress there is log entry 10). -/
def Obligations.InvariantAtReset : Prop := State.reset.Inv

/-- The invariant holds in every state a run can be in: after loading any images, with any input pending, through any steps and
arrivals (R7, R140). -/
def Obligations.InvariantWhereverReachable : Prop :=
  ∀ s : State, State.Reachable s → s.Inv
end

