-- ==== Sys2Proof/Laws/Encoding.lean ====
section
/-! SUPPORT. Bits of an encoded word. -/

namespace Sys2Proof

/-- A bit of a word put together from fields is that bit of the fields. -/
@[simp] theorem getLsbD_wordOf {n : Nat} (f : BitVec n) (h : n = 16) (k : Nat) :
    (wordOf f h).getLsbD k = f.getLsbD k := by
  simp [wordOf]

@[simp] theorem getElem_wordOf {n : Nat} (f : BitVec n) (h : n = 16) (k : Nat) (hk : k < 16) :
    (wordOf f h)[k] = f.getLsbD k := by
  simp [wordOf, BitVec.getLsbD_eq_getElem (h ▸ hk)]

end Sys2Proof
end

