-- ==== Sys2Proof/Laws/State.lean ====
section
/-! SUPPORT. One lemma per field per update of the state, so that no later proof unfolds a record update. -/

namespace Sys2Proof.Machine

@[simp] theorem State.setReg_pc (s : State) (r : RegIdx) (v : Word) : (s.setReg r v).pc = s.pc := rfl
@[simp] theorem State.setReg_cond (s : State) (r : RegIdx) (v : Word) : (s.setReg r v).cond = s.cond := rfl
@[simp] theorem State.setReg_runState (s : State) (r : RegIdx) (v : Word) : (s.setReg r v).runState = s.runState := rfl
@[simp] theorem State.setReg_mem (s : State) (r : RegIdx) (v : Word) : (s.setReg r v).mem = s.mem := rfl
@[simp] theorem State.setReg_kbdIn (s : State) (r : RegIdx) (v : Word) : (s.setReg r v).kbdIn = s.kbdIn := rfl
@[simp] theorem State.setReg_conOut (s : State) (r : RegIdx) (v : Word) : (s.setReg r v).conOut = s.conOut := rfl
@[simp] theorem State.setReg_pending (s : State) (r : RegIdx) (v : Word) : (s.setReg r v).pending = s.pending := rfl

@[simp] theorem State.setPc_regs (s : State) (v : Word) : (s.setPc v).regs = s.regs := rfl
@[simp] theorem State.setPc_pc (s : State) (v : Word) : (s.setPc v).pc = v := rfl
@[simp] theorem State.setPc_cond (s : State) (v : Word) : (s.setPc v).cond = s.cond := rfl
@[simp] theorem State.setPc_runState (s : State) (v : Word) : (s.setPc v).runState = s.runState := rfl
@[simp] theorem State.setPc_mem (s : State) (v : Word) : (s.setPc v).mem = s.mem := rfl
@[simp] theorem State.setPc_kbdIn (s : State) (v : Word) : (s.setPc v).kbdIn = s.kbdIn := rfl
@[simp] theorem State.setPc_conOut (s : State) (v : Word) : (s.setPc v).conOut = s.conOut := rfl
@[simp] theorem State.setPc_pending (s : State) (v : Word) : (s.setPc v).pending = s.pending := rfl

@[simp] theorem State.setCell_regs (s : State) (a v : Word) : (s.setCell a v).regs = s.regs := rfl
@[simp] theorem State.setCell_pc (s : State) (a v : Word) : (s.setCell a v).pc = s.pc := rfl
@[simp] theorem State.setCell_cond (s : State) (a v : Word) : (s.setCell a v).cond = s.cond := rfl
@[simp] theorem State.setCell_runState (s : State) (a v : Word) : (s.setCell a v).runState = s.runState := rfl
@[simp] theorem State.setCell_mem (s : State) (a v : Word) : (s.setCell a v).mem = s.mem.set a.toNat v := rfl
@[simp] theorem State.setCell_kbdIn (s : State) (a v : Word) : (s.setCell a v).kbdIn = s.kbdIn := rfl
@[simp] theorem State.setCell_conOut (s : State) (a v : Word) : (s.setCell a v).conOut = s.conOut := rfl
@[simp] theorem State.setCell_pending (s : State) (a v : Word) : (s.setCell a v).pending = s.pending := rfl

@[simp] theorem State.memWrite_regs (s : State) (a v : Word) : (s.memWrite a v).regs = s.regs := rfl
@[simp] theorem State.memWrite_pc (s : State) (a v : Word) : (s.memWrite a v).pc = s.pc := rfl
@[simp] theorem State.memWrite_cond (s : State) (a v : Word) : (s.memWrite a v).cond = s.cond := rfl
@[simp] theorem State.memWrite_runState (s : State) (a v : Word) : (s.memWrite a v).runState = s.runState := rfl
@[simp] theorem State.memWrite_mem (s : State) (a v : Word) : (s.memWrite a v).mem = s.mem.set a.toNat v := rfl
@[simp] theorem State.memWrite_kbdIn (s : State) (a v : Word) : (s.memWrite a v).kbdIn = s.kbdIn := rfl
@[simp] theorem State.memWrite_conOut (s : State) (a v : Word) : (s.memWrite a v).conOut = s.conOut := rfl
@[simp] theorem State.memWrite_pending (s : State) (a v : Word) : (s.memWrite a v).pending = s.pending := rfl

@[simp] theorem State.conWrite_regs (s : State) (b : Byte) : (s.conWrite b).regs = s.regs := rfl
@[simp] theorem State.conWrite_pc (s : State) (b : Byte) : (s.conWrite b).pc = s.pc := rfl
@[simp] theorem State.conWrite_cond (s : State) (b : Byte) : (s.conWrite b).cond = s.cond := rfl
@[simp] theorem State.conWrite_runState (s : State) (b : Byte) : (s.conWrite b).runState = s.runState := rfl
@[simp] theorem State.conWrite_mem (s : State) (b : Byte) : (s.conWrite b).mem = s.mem := rfl
@[simp] theorem State.conWrite_kbdIn (s : State) (b : Byte) : (s.conWrite b).kbdIn = s.kbdIn := rfl
@[simp] theorem State.conWrite_conOut (s : State) (b : Byte) : (s.conWrite b).conOut = s.conOut ++ [b] := rfl
@[simp] theorem State.conWrite_pending (s : State) (b : Byte) : (s.conWrite b).pending = s.pending := rfl

@[simp] theorem State.conWriteAll_regs (s : State) (bs : List Byte) : (s.conWriteAll bs).regs = s.regs := rfl
@[simp] theorem State.conWriteAll_pc (s : State) (bs : List Byte) : (s.conWriteAll bs).pc = s.pc := rfl
@[simp] theorem State.conWriteAll_cond (s : State) (bs : List Byte) : (s.conWriteAll bs).cond = s.cond := rfl
@[simp] theorem State.conWriteAll_runState (s : State) (bs : List Byte) : (s.conWriteAll bs).runState = s.runState := rfl
@[simp] theorem State.conWriteAll_mem (s : State) (bs : List Byte) : (s.conWriteAll bs).mem = s.mem := rfl
@[simp] theorem State.conWriteAll_kbdIn (s : State) (bs : List Byte) : (s.conWriteAll bs).kbdIn = s.kbdIn := rfl
@[simp] theorem State.conWriteAll_conOut (s : State) (bs : List Byte) : (s.conWriteAll bs).conOut = s.conOut ++ bs := rfl
@[simp] theorem State.conWriteAll_pending (s : State) (bs : List Byte) : (s.conWriteAll bs).pending = s.pending := rfl

@[simp] theorem State.arrive_regs (s : State) (bs : List Byte) : (s.arrive bs).regs = s.regs := rfl
@[simp] theorem State.arrive_pc (s : State) (bs : List Byte) : (s.arrive bs).pc = s.pc := rfl
@[simp] theorem State.arrive_cond (s : State) (bs : List Byte) : (s.arrive bs).cond = s.cond := rfl
@[simp] theorem State.arrive_runState (s : State) (bs : List Byte) : (s.arrive bs).runState = s.runState := rfl
@[simp] theorem State.arrive_mem (s : State) (bs : List Byte) : (s.arrive bs).mem = s.mem := rfl
@[simp] theorem State.arrive_kbdIn (s : State) (bs : List Byte) : (s.arrive bs).kbdIn = s.kbdIn ++ bs := rfl
@[simp] theorem State.arrive_conOut (s : State) (bs : List Byte) : (s.arrive bs).conOut = s.conOut := rfl
@[simp] theorem State.arrive_pending (s : State) (bs : List Byte) : (s.arrive bs).pending = s.pending := rfl

@[simp] theorem State.setFlags_regs (s : State) (v : Word) : (s.setFlags v).regs = s.regs := rfl
@[simp] theorem State.setFlags_pc (s : State) (v : Word) : (s.setFlags v).pc = s.pc := rfl
@[simp] theorem State.setFlags_cond (s : State) (v : Word) : (s.setFlags v).cond = condOf v := rfl
@[simp] theorem State.setFlags_runState (s : State) (v : Word) : (s.setFlags v).runState = s.runState := rfl
@[simp] theorem State.setFlags_mem (s : State) (v : Word) : (s.setFlags v).mem = s.mem := rfl
@[simp] theorem State.setFlags_kbdIn (s : State) (v : Word) : (s.setFlags v).kbdIn = s.kbdIn := rfl
@[simp] theorem State.setFlags_conOut (s : State) (v : Word) : (s.setFlags v).conOut = s.conOut := rfl
@[simp] theorem State.setFlags_pending (s : State) (v : Word) : (s.setFlags v).pending = s.pending := rfl

@[simp] theorem State.writeResult_pc (s : State) (r : RegIdx) (v : Word) : (s.writeResult r v).pc = s.pc := rfl
@[simp] theorem State.writeResult_cond (s : State) (r : RegIdx) (v : Word) : (s.writeResult r v).cond = condOf v := rfl
@[simp] theorem State.writeResult_runState (s : State) (r : RegIdx) (v : Word) : (s.writeResult r v).runState = s.runState := rfl
@[simp] theorem State.writeResult_mem (s : State) (r : RegIdx) (v : Word) : (s.writeResult r v).mem = s.mem := rfl
@[simp] theorem State.writeResult_kbdIn (s : State) (r : RegIdx) (v : Word) : (s.writeResult r v).kbdIn = s.kbdIn := rfl
@[simp] theorem State.writeResult_conOut (s : State) (r : RegIdx) (v : Word) : (s.writeResult r v).conOut = s.conOut := rfl
@[simp] theorem State.writeResult_pending (s : State) (r : RegIdx) (v : Word) : (s.writeResult r v).pending = s.pending := rfl

@[simp] theorem State.link_pc (s : State) : s.link.pc = s.pc := rfl
@[simp] theorem State.link_cond (s : State) : s.link.cond = s.cond := rfl
@[simp] theorem State.link_runState (s : State) : s.link.runState = s.runState := rfl
@[simp] theorem State.link_mem (s : State) : s.link.mem = s.mem := rfl
@[simp] theorem State.link_kbdIn (s : State) : s.link.kbdIn = s.kbdIn := rfl
@[simp] theorem State.link_conOut (s : State) : s.link.conOut = s.conOut := rfl
@[simp] theorem State.link_pending (s : State) : s.link.pending = s.pending := rfl

@[simp] theorem State.raiseFatal_regs (s : State) (c : FatalCause) : (s.raiseFatal c).regs = s.regs := rfl
@[simp] theorem State.raiseFatal_pc (s : State) (c : FatalCause) : (s.raiseFatal c).pc = s.pc := rfl
@[simp] theorem State.raiseFatal_cond (s : State) (c : FatalCause) : (s.raiseFatal c).cond = s.cond := rfl
@[simp] theorem State.raiseFatal_runState (s : State) (c : FatalCause) : (s.raiseFatal c).runState = .fatal c := rfl
@[simp] theorem State.raiseFatal_mem (s : State) (c : FatalCause) : (s.raiseFatal c).mem = s.mem := rfl
@[simp] theorem State.raiseFatal_kbdIn (s : State) (c : FatalCause) : (s.raiseFatal c).kbdIn = s.kbdIn := rfl
@[simp] theorem State.raiseFatal_conOut (s : State) (c : FatalCause) : (s.raiseFatal c).conOut = s.conOut := rfl
@[simp] theorem State.raiseFatal_pending (s : State) (c : FatalCause) : (s.raiseFatal c).pending = s.pending := rfl

@[simp] theorem State.setPending_regs (s : State) (p : Option Pending) : (s.setPending p).regs = s.regs := rfl
@[simp] theorem State.setPending_pc (s : State) (p : Option Pending) : (s.setPending p).pc = s.pc := rfl
@[simp] theorem State.setPending_cond (s : State) (p : Option Pending) : (s.setPending p).cond = s.cond := rfl
@[simp] theorem State.setPending_runState (s : State) (p : Option Pending) : (s.setPending p).runState = s.runState := rfl
@[simp] theorem State.setPending_mem (s : State) (p : Option Pending) : (s.setPending p).mem = s.mem := rfl
@[simp] theorem State.setPending_kbdIn (s : State) (p : Option Pending) : (s.setPending p).kbdIn = s.kbdIn := rfl
@[simp] theorem State.setPending_conOut (s : State) (p : Option Pending) : (s.setPending p).conOut = s.conOut := rfl
@[simp] theorem State.setPending_pending (s : State) (p : Option Pending) : (s.setPending p).pending = p := rfl

/-- The register file after a write (R10): the register written holds the value, every other one is kept. -/
@[simp] theorem State.reg_setReg (s : State) (r q : RegIdx) (v : Word) :
    (s.setReg r v).reg q = if q = r then v else s.reg q := by
  simp [State.reg, State.setReg, Vector.getElem_set, BitVec.toNat_inj, eq_comm]

/-- A register read depends on the register file alone. -/
theorem State.reg_congr {s t : State} (h : t.regs = s.regs) (r : RegIdx) : t.reg r = s.reg r := by
  simp [State.reg, h]

/-- A cell read depends on memory alone. -/
theorem State.cell_congr {s t : State} (h : t.mem = s.mem) (a : Word) : t.cell a = s.cell a := by
  simp [State.cell, h]

@[simp] theorem State.reg_setPc (s : State) (v : Word) (r : RegIdx) : (s.setPc v).reg r = s.reg r := rfl
@[simp] theorem State.reg_setCell (s : State) (a v : Word) (r : RegIdx) : (s.setCell a v).reg r = s.reg r := rfl
@[simp] theorem State.reg_memWrite (s : State) (a v : Word) (r : RegIdx) : (s.memWrite a v).reg r = s.reg r := rfl
@[simp] theorem State.reg_conWrite (s : State) (b : Byte) (r : RegIdx) : (s.conWrite b).reg r = s.reg r := rfl
@[simp] theorem State.reg_conWriteAll (s : State) (bs : List Byte) (r : RegIdx) :
    (s.conWriteAll bs).reg r = s.reg r := rfl
@[simp] theorem State.reg_setPending (s : State) (p : Option Pending) (r : RegIdx) :
    (s.setPending p).reg r = s.reg r := rfl
@[simp] theorem State.reg_arrive (s : State) (bs : List Byte) (r : RegIdx) : (s.arrive bs).reg r = s.reg r := rfl
@[simp] theorem State.reg_setFlags (s : State) (v : Word) (r : RegIdx) : (s.setFlags v).reg r = s.reg r := rfl
@[simp] theorem State.reg_raiseFatal (s : State) (c : FatalCause) (r : RegIdx) :
    (s.raiseFatal c).reg r = s.reg r := rfl

@[simp] theorem State.reg_writeResult (s : State) (r q : RegIdx) (v : Word) :
    (s.writeResult r v).reg q = if q = r then v else s.reg q := by
  simp [State.writeResult]

@[simp] theorem State.reg_link (s : State) (q : RegIdx) :
    s.link.reg q = if q = linkReg then s.pc else s.reg q := by
  simp [State.link]

@[simp] theorem State.cell_setReg (s : State) (r : RegIdx) (v a : Word) : (s.setReg r v).cell a = s.cell a := rfl
@[simp] theorem State.cell_setPc (s : State) (v a : Word) : (s.setPc v).cell a = s.cell a := rfl
@[simp] theorem State.cell_conWrite (s : State) (b : Byte) (a : Word) : (s.conWrite b).cell a = s.cell a := rfl
@[simp] theorem State.cell_conWriteAll (s : State) (bs : List Byte) (a : Word) :
    (s.conWriteAll bs).cell a = s.cell a := rfl
@[simp] theorem State.cell_setPending (s : State) (p : Option Pending) (a : Word) :
    (s.setPending p).cell a = s.cell a := rfl
@[simp] theorem State.cell_arrive (s : State) (bs : List Byte) (a : Word) : (s.arrive bs).cell a = s.cell a := rfl
@[simp] theorem State.cell_setFlags (s : State) (v a : Word) : (s.setFlags v).cell a = s.cell a := rfl
@[simp] theorem State.cell_writeResult (s : State) (r : RegIdx) (v a : Word) :
    (s.writeResult r v).cell a = s.cell a := rfl
@[simp] theorem State.cell_link (s : State) (a : Word) : s.link.cell a = s.cell a := rfl
@[simp] theorem State.cell_raiseFatal (s : State) (c : FatalCause) (a : Word) :
    (s.raiseFatal c).cell a = s.cell a := rfl

end Sys2Proof.Machine
end

