-- ==== Sys2Proof/Laws/Memory.lean ====
section
/-! SUPPORT. The memory list: what a read gives after a write, on any list, and that every operation keeps the canonical form. -/

namespace Sys2Proof.Machine

theorem Memory.get_erase (m : Memory) (a b : Nat) :
    (m.erase a).get b = if b = a then resetCell else m.get b := by
  induction m with
  | nil => simp [Memory.erase, Memory.get]
  | cons c rest ih =>
    obtain ⟨d, v⟩ := c
    by_cases hd : a = d
    · subst hd
      simp only [Memory.erase, if_pos, ih, Memory.get]
      split <;> simp_all
    · simp only [Memory.erase, if_neg hd, Memory.get, ih]
      by_cases hb : b = a
      · subst hb; simp [hd]
      · simp [hb]

theorem Memory.get_insert_self (m : Memory) (a : Nat) (v : Word) (h : ∀ c ∈ m, c.1 ≠ a) :
    (m.insert a v).get a = v := by
  induction m with
  | nil => simp [Memory.insert, Memory.get]
  | cons c rest ih =>
    obtain ⟨d, w⟩ := c
    have hd : a ≠ d := fun e => h (d, w) (by simp) e.symm
    unfold Memory.insert
    split
    · simp [Memory.get]
    · simp only [Memory.get, if_neg hd]
      exact ih fun c hc => h c (by simp [hc])

theorem Memory.get_insert_ne (m : Memory) (a b : Nat) (v : Word) (h : b ≠ a) :
    (m.insert a v).get b = m.get b := by
  induction m with
  | nil => simp [Memory.insert, Memory.get, h]
  | cons c rest ih =>
    obtain ⟨d, w⟩ := c
    unfold Memory.insert
    split
    · simp [Memory.get, h]
    · simp only [Memory.get, ih]

theorem Memory.erase_no_key (m : Memory) (a : Nat) : ∀ c ∈ m.erase a, c.1 ≠ a := by
  induction m with
  | nil => simp [Memory.erase]
  | cons c rest ih =>
    obtain ⟨d, v⟩ := c
    unfold Memory.erase
    split
    · exact ih
    · rename_i hd
      intro c hc
      rcases List.mem_cons.mp hc with rfl | hc
      · exact fun e => hd e.symm
      · exact ih c hc

/-- A read after a write (R35): the address written gives the value, every other one what it gave before. No premise on
the list. -/
theorem Memory.get_set (m : Memory) (a b : Nat) (v : Word) :
    (m.set a v).get b = if b = a then v else m.get b := by
  unfold Memory.set
  split
  · rename_i hv; rw [Memory.get_erase, hv]
  · by_cases hb : b = a
    · subst hb; simp [Memory.get_insert_self _ _ _ (Memory.erase_no_key m b)]
    · simp [hb, Memory.get_insert_ne, Memory.get_erase]

theorem Memory.wfFrom_mono {lo lo' : Nat} {m : Memory} (h : Memory.wfFrom lo m = true) (hl : lo' ≤ lo) :
    Memory.wfFrom lo' m = true := by
  cases m with
  | nil => rfl
  | cons c rest =>
    obtain ⟨a, v⟩ := c
    simp only [Memory.wfFrom, Bool.and_eq_true, decide_eq_true_eq] at h ⊢
    exact ⟨⟨⟨by omega, h.1.1.2⟩, h.1.2⟩, h.2⟩

theorem Memory.wfFrom_erase {lo : Nat} {m : Memory} (a : Nat) (h : Memory.wfFrom lo m = true) :
    Memory.wfFrom lo (m.erase a) = true := by
  induction m generalizing lo with
  | nil => rfl
  | cons c rest ih =>
    obtain ⟨d, v⟩ := c
    simp only [Memory.wfFrom, Bool.and_eq_true, decide_eq_true_eq] at h
    unfold Memory.erase
    split
    · exact Memory.wfFrom_mono (ih h.2) (by omega)
    · simp only [Memory.wfFrom, Bool.and_eq_true, decide_eq_true_eq]
      exact ⟨h.1, ih h.2⟩

theorem Memory.wfFrom_insert {lo a : Nat} {m : Memory} {v : Word} (h : Memory.wfFrom lo m = true) (hlo : lo ≤ a)
    (ha : a < 65536) (hv : v ≠ resetCell) (hk : ∀ c ∈ m, c.1 ≠ a) : Memory.wfFrom lo (m.insert a v) = true := by
  induction m generalizing lo with
  | nil => simp [Memory.insert, Memory.wfFrom, hlo, ha, hv]
  | cons c rest ih =>
    obtain ⟨d, w⟩ := c
    have hd : d ≠ a := hk (d, w) (by simp)
    simp only [Memory.wfFrom, Bool.and_eq_true, decide_eq_true_eq] at h
    unfold Memory.insert
    split
    · simp only [Memory.wfFrom, Bool.and_eq_true, decide_eq_true_eq, bne_iff_ne]
      exact ⟨⟨⟨hlo, ha⟩, hv⟩, ⟨⟨by omega, h.1.1.2⟩, by simpa using h.1.2⟩, h.2⟩
    · simp only [Memory.wfFrom, Bool.and_eq_true, decide_eq_true_eq]
      exact ⟨h.1, ih h.2 (by omega) fun c hc => hk c (by simp [hc])⟩

/-- A write inside the address space keeps the canonical form. -/
theorem Memory.wf_set {m : Memory} {a : Nat} (v : Word) (h : m.wf = true) (ha : a < 65536) :
    (m.set a v).wf = true := by
  unfold Memory.set
  split
  · exact Memory.wfFrom_erase a h
  · rename_i hv
    exact Memory.wfFrom_insert (Memory.wfFrom_erase a h) (Nat.zero_le a) ha hv (Memory.erase_no_key m a)

theorem Memory.wf_loadWords {m : Memory} (a : Nat) (b : List Byte) (h : m.wf = true) :
    (m.loadWords a b).wf = true := by
  fun_induction Memory.loadWords m a b with
  | case1 m a hi lo rest ha ih => exact ih (Memory.wf_set _ h (by omega))
  | case2 => exact h
  | case3 => exact h
  | case4 => exact h

/-- Loading an image keeps the canonical form. -/
theorem Memory.wf_load {m : Memory} (b : List Byte) (h : m.wf = true) : (m.load b).wf = true := by
  unfold Memory.load
  split
  · exact Memory.wf_loadWords _ _ h
  · exact h
  · exact h

/-- Every store on the state keeps the canonical form. -/
theorem State.wf_setCell {s : State} (a v : Word) (h : s.mem.wf = true) : (s.setCell a v).mem.wf = true :=
  Memory.wf_set v h a.isLt

/-- The memory at reset is canonical. -/
theorem State.wf_reset : State.reset.mem.wf = true := rfl

@[simp] theorem State.cell_setCell (s : State) (a b v : Word) :
    (s.setCell a v).cell b = if b = a then v else s.cell b := by
  simp [State.cell, State.setCell, Memory.get_set, BitVec.toNat_inj]

@[simp] theorem State.cell_memWrite (s : State) (a b v : Word) :
    (s.memWrite a v).cell b = if b = a then v else s.cell b := State.cell_setCell s a b v

end Sys2Proof.Machine
end

