-- ==== Sys2Proof/Laws/Ops.lean ====
section
/-! SUPPORT. For each shared operation, what it can do, said once. -/

namespace Sys2Proof.Machine

/-- A poll with input pending (R32). -/
theorem State.keyboardPoll_cons {s : State} {c : Byte} {rest : List Byte} (h : s.kbdIn = c :: rest) :
    s.keyboardPoll =
      ((({ s with kbdIn := rest } : State).setCell kbsr kbsrReady).setCell kbdr (zextByte c)) := by
  simp [State.keyboardPoll, State.conRead, h]

/-- A poll with no input pending (R32). -/
theorem State.keyboardPoll_nil {s : State} (h : s.kbdIn = []) : s.keyboardPoll = s.setCell kbsr kbsrIdle := by
  simp [State.keyboardPoll, State.conRead, h]

/-- What a read leaves alone: registers, pc, cond, run state, service, output (R31, R32). -/
theorem State.pollAt_kept (s : State) (a : Word) :
    (s.pollAt a).regs = s.regs ∧ (s.pollAt a).pc = s.pc ∧ (s.pollAt a).cond = s.cond ∧
      (s.pollAt a).runState = s.runState ∧ (s.pollAt a).pending = s.pending ∧ (s.pollAt a).conOut = s.conOut := by
  unfold State.pollAt
  split
  · cases h : s.kbdIn with
    | nil => rw [State.keyboardPoll_nil h]; simp
    | cons c rest => rw [State.keyboardPoll_cons h]; simp
  · simp

@[simp] theorem State.pollAt_regs (s : State) (a : Word) : (s.pollAt a).regs = s.regs := (s.pollAt_kept a).1
@[simp] theorem State.pollAt_pc (s : State) (a : Word) : (s.pollAt a).pc = s.pc := (s.pollAt_kept a).2.1
@[simp] theorem State.pollAt_cond (s : State) (a : Word) : (s.pollAt a).cond = s.cond := (s.pollAt_kept a).2.2.1
@[simp] theorem State.pollAt_runState (s : State) (a : Word) : (s.pollAt a).runState = s.runState :=
  (s.pollAt_kept a).2.2.2.1
@[simp] theorem State.pollAt_pending (s : State) (a : Word) : (s.pollAt a).pending = s.pending :=
  (s.pollAt_kept a).2.2.2.2.1
@[simp] theorem State.pollAt_conOut (s : State) (a : Word) : (s.pollAt a).conOut = s.conOut :=
  (s.pollAt_kept a).2.2.2.2.2
@[simp] theorem State.reg_pollAt (s : State) (a : Word) (r : RegIdx) : (s.pollAt a).reg r = s.reg r :=
  State.reg_congr (s.pollAt_regs a) r

/-- A read keeps memory canonical. -/
theorem State.wf_pollAt {s : State} (a : Word) (h : s.mem.wf = true) : (s.pollAt a).mem.wf = true := by
  unfold State.pollAt
  split
  · cases hk : s.kbdIn with
    | nil => rw [State.keyboardPoll_nil hk]; exact State.wf_setCell _ _ h
    | cons c rest =>
      rw [State.keyboardPoll_cons hk]
      exact State.wf_setCell _ _ (State.wf_setCell _ _ h)
  · exact h

/-- A read takes from the head of the queue, or nothing. -/
theorem State.pollAt_kbdIn_suffix (s : State) (a : Word) : (s.pollAt a).kbdIn <:+ s.kbdIn := by
  unfold State.pollAt
  split
  · cases hk : s.kbdIn with
    | nil => rw [State.keyboardPoll_nil hk]; simp [hk]
    | cons c rest => rw [State.keyboardPoll_cons hk]; simp
  · exact List.suffix_refl _

/-- A read changes no cell but KBSR and KBDR. -/
theorem State.cell_pollAt {s : State} {a b : Word} (h1 : b ≠ kbsr) (h2 : b ≠ kbdr) :
    (s.pollAt a).cell b = s.cell b := by
  unfold State.pollAt
  split
  · cases hk : s.kbdIn with
    | nil => rw [State.keyboardPoll_nil hk]; simp [h1]
    | cons c rest => rw [State.keyboardPoll_cons hk]; simp [h1, h2]; rfl
  · rfl

@[simp] theorem State.memRead_fst (s : State) (a : Word) : (s.memRead a).1 = (s.pollAt a).cell a := rfl
@[simp] theorem State.memRead_snd (s : State) (a : Word) : (s.memRead a).2 = s.pollAt a := rfl

/-- Nothing polls but a read of 0xFE00 (R31). -/
theorem State.pollAt_of_ne {s : State} {a : Word} (h : a ≠ kbsr) : s.pollAt a = s := if_neg h

/-- The byte-by-byte form of `conWriteAll` (R105, R107): ConWrite of each byte in order. -/
theorem State.conWriteAll_eq_foldl (s : State) (bs : List Byte) : s.conWriteAll bs = bs.foldl State.conWrite s := by
  induction bs generalizing s with
  | nil => simp [State.conWriteAll]
  | cons b rest ih => rw [List.foldl_cons, ← ih]; simp [State.conWriteAll, State.conWrite]

/-- GETC with a character (R101). -/
theorem State.awaitGetc_cons {s : State} {c : Byte} {rest : List Byte} (h : s.kbdIn = c :: rest) :
    s.awaitGetc = (({ s with kbdIn := rest } : State).setPending none).writeResult serviceReg (zextByte c) := by
  simp [State.awaitGetc, State.conRead, h]

/-- GETC with none (R102). -/
theorem State.awaitGetc_nil {s : State} (h : s.kbdIn = []) : s.awaitGetc = s.setPending (some .getc) := by
  simp [State.awaitGetc, State.conRead, h]

/-- IN with a character (R105). -/
theorem State.awaitIn_cons {s : State} {c : Byte} {rest : List Byte} (h : s.kbdIn = c :: rest) :
    s.awaitIn =
      ((({ s with kbdIn := rest } : State).setPending none).conWrite c).writeResult serviceReg (zextByte c) := by
  simp [State.awaitIn, State.conRead, h]

/-- IN with none (R102). -/
theorem State.awaitIn_nil {s : State} (h : s.kbdIn = []) : s.awaitIn = s.setPending (some .inRead) := by
  simp [State.awaitIn, State.conRead, h]

/-- What the loop of a string service leaves alone (R104, R106). -/
theorem State.stringFrom_kept (ends : Word → Bool) (send : Word → List Byte) (wait : Word → Pending) (n : Nat)
    (a : Word) (s : State) :
    (State.stringFrom ends send wait n a s).regs = s.regs ∧ (State.stringFrom ends send wait n a s).pc = s.pc ∧
      (State.stringFrom ends send wait n a s).cond = s.cond ∧
      (State.stringFrom ends send wait n a s).runState = s.runState := by
  fun_induction State.stringFrom ends send wait n a s with
  | case1 => simp
  | case2 => simp
  | case3 => simp
  | case4 n a s _ _ ih => simpa using ih

/-- The loop keeps memory canonical. -/
theorem State.wf_stringFrom {s : State} (ends : Word → Bool) (send : Word → List Byte) (wait : Word → Pending)
    (n : Nat) (a : Word) (h : s.mem.wf = true) : (State.stringFrom ends send wait n a s).mem.wf = true := by
  fun_induction State.stringFrom ends send wait n a s with
  | case1 => exact h
  | case2 n a s _ => exact State.wf_pollAt a h
  | case3 n a s _ _ => exact State.wf_pollAt a h
  | case4 n a s _ _ ih => exact ih (State.wf_pollAt a h)

/-- The next address of a string, counted from the one before. -/
theorem add_one_add_ofNat (a : Word) (k : Nat) : a + 1 + BitVec.ofNat 16 k = a + BitVec.ofNat 16 (k + 1) := by
  rw [BitVec.add_assoc]
  congr 1
  apply BitVec.eq_of_toNat_eq
  simp
  omega

/-- The bytes of `n` words from `a` on, the first of them split off. -/
theorem flatMap_words_succ (send : Word → List Byte) (cell : Word → Word) (a : Word) (n : Nat) :
    (List.range (n + 1)).flatMap (fun k => send (cell (a + BitVec.ofNat 16 k))) =
      send (cell a) ++ (List.range n).flatMap (fun k => send (cell (a + BitVec.ofNat 16 (k + 1)))) := by
  simp [List.range_succ_eq_map, List.flatMap_map]

/-- Two writes are one. -/
theorem State.conWriteAll_append (s : State) (bs cs : List Byte) :
    (s.conWriteAll bs).conWriteAll cs = s.conWriteAll (bs ++ cs) := by
  simp [State.conWriteAll]

/-- Writing nothing. -/
@[simp] theorem State.conWriteAll_nil (s : State) : s.conWriteAll [] = s := by simp [State.conWriteAll]

/-- One read of the loop of a string service. -/
theorem State.stringFrom_succ (ends : Word → Bool) (send : Word → List Byte) (wait : Word → Pending) (n : Nat)
    (a : Word) (s : State) :
    State.stringFrom ends send wait (n + 1) a s =
      if ends ((s.pollAt a).cell a) then (s.pollAt a).setPending none
      else if a + 1 = kbsr then
        ((s.pollAt a).conWriteAll (send ((s.pollAt a).cell a))).setPending (some (wait (a + 1)))
      else State.stringFrom ends send wait n (a + 1) ((s.pollAt a).conWriteAll (send ((s.pollAt a).cell a))) := rfl

/-- The loop away from 0xFE00, with reads enough to get there: the words up to the terminator or up to 0xFE00. -/
theorem State.stringFrom_of_ne (ends : Word → Bool) (send : Word → List Byte) (wait : Word → Pending) (n : Nat)
    (a : Word) (s : State) (ha : a ≠ kbsr) (hn : (kbsr - a).toNat ≤ n) :
    ∃ j p, (∀ k, k < j → ends (s.cell (a + BitVec.ofNat 16 k)) = false ∧ a + BitVec.ofNat 16 k ≠ kbsr) ∧
      State.stringFrom ends send wait n a s =
        (s.conWriteAll ((List.range j).flatMap fun k => send (s.cell (a + BitVec.ofNat 16 k)))).setPending p ∧
      (a + BitVec.ofNat 16 j ≠ kbsr ∧ ends (s.cell (a + BitVec.ofNat 16 j)) = true ∧ p = none ∨
        a + BitVec.ofNat 16 j = kbsr ∧ p = some (wait kbsr)) := by
  induction n generalizing a s with
  | zero => exact absurd (by bv_omega) ha
  | succ n ih =>
    rw [State.stringFrom_succ, State.pollAt_of_ne ha]
    by_cases he : ends (s.cell a) = true
    · exact ⟨0, none, by simp, by simp [he], .inl (by simp [he, ha])⟩
    · rw [if_neg he]
      by_cases h1 : a + 1 = kbsr
      · refine ⟨1, some (wait kbsr), ?_, by rw [if_pos h1, h1]; simp, .inr (by simp [← h1])⟩
        intro k hk
        obtain rfl : k = 0 := by omega
        simpa [ha] using he
      · obtain ⟨j, p, hk, hs, hp⟩ := ih (a + 1) (s.conWriteAll (send (s.cell a))) h1 (by bv_omega)
        simp only [State.cell_conWriteAll, add_one_add_ofNat] at hk hs hp
        refine ⟨j + 1, p, ?_, ?_, hp⟩
        · intro k hj
          cases k with
          | zero => simpa [ha] using he
          | succ k => exact hk k (by omega)
        · rw [if_neg h1, hs, flatMap_words_succ, State.conWriteAll_append]

/-- The loop of a string service, all it can do (R104, R106): after the poll of a first read at 0xFE00, `j` words that do not
end it, none of them at a later 0xFE00, are sent; then the terminator ends it, or a later 0xFE00 suspends it. -/
theorem State.stringFrom_eq (ends : Word → Bool) (send : Word → List Byte) (wait : Word → Pending) (n : Nat)
    (a : Word) (s : State) (hn : stringReads ≤ n) :
    ∃ j p, (∀ k, k < j → ends ((s.pollAt a).cell (a + BitVec.ofNat 16 k)) = false) ∧
      (∀ k, k < j → k ≠ 0 → a + BitVec.ofNat 16 k ≠ kbsr) ∧
      State.stringFrom ends send wait n a s =
        ((s.pollAt a).conWriteAll
          ((List.range j).flatMap fun k => send ((s.pollAt a).cell (a + BitVec.ofNat 16 k)))).setPending p ∧
      ((j = 0 ∨ a + BitVec.ofNat 16 j ≠ kbsr) ∧ ends ((s.pollAt a).cell (a + BitVec.ofNat 16 j)) = true ∧ p = none ∨
        j ≠ 0 ∧ a + BitVec.ofNat 16 j = kbsr ∧ p = some (wait kbsr)) := by
  obtain ⟨n, rfl⟩ : ∃ f, n = f + 1 := ⟨n - 1, by unfold stringReads at hn; omega⟩
  rw [State.stringFrom_succ]
  by_cases he : ends ((s.pollAt a).cell a) = true
  · exact ⟨0, none, by simp, by simp, by simp [he], .inl (by simp [he])⟩
  · rw [if_neg he]
    by_cases h1 : a + 1 = kbsr
    · refine ⟨1, some (wait kbsr), ?_, fun k hk h0 => absurd hk (by omega), by rw [if_pos h1, h1]; simp, .inr (by simp [← h1])⟩
      intro k hk
      obtain rfl : k = 0 := by omega
      simpa using he
    · obtain ⟨j, p, hk, hs, hp⟩ := State.stringFrom_of_ne ends send wait n (a + 1)
        ((s.pollAt a).conWriteAll (send ((s.pollAt a).cell a))) h1
        (by have := (kbsr - (a + 1)).isLt; unfold stringReads at hn; omega)
      simp only [State.cell_conWriteAll, add_one_add_ofNat] at hk hs hp
      refine ⟨j + 1, p, ?_, ?_, ?_, ?_⟩
      · intro k hj
        cases k with
        | zero => simpa using he
        | succ k => exact (hk k (by omega)).1
      · intro k hj h0
        obtain ⟨k, rfl⟩ : ∃ i, k = i + 1 := ⟨k - 1, by omega⟩
        exact (hk k (by omega)).2
      · rw [if_neg h1, hs, flatMap_words_succ, State.conWriteAll_append]
      · simpa using hp

end Sys2Proof.Machine
end

