-- ==== Sys2Proof/Laws/PerInstr.lean ====
section
/-! SUPPORT. Per-instruction laws about the instruction as syntax: its word matches its row of spec/opcode_table.json. -/

namespace Sys2Proof.Laws.RowMatch

/-- The row's match and mask (R54, R55). -/
def row : Instr → Word × Word
  | .br _ _ _ _ => (0x0000, 0xF000)
  | .addReg _ _ _ _ => (0x1000, 0xF020)
  | .addImm _ _ _ => (0x1020, 0xF020)
  | .ld _ _ => (0x2000, 0xF000)
  | .st _ _ => (0x3000, 0xF000)
  | .jsr _ => (0x4800, 0xF800)
  | .jsrr _ _ _ => (0x4000, 0xF800)
  | .andReg _ _ _ _ => (0x5000, 0xF020)
  | .andImm _ _ _ => (0x5020, 0xF020)
  | .ldr _ _ _ => (0x6000, 0xF000)
  | .str _ _ _ => (0x7000, 0xF000)
  | .rti _ => (0x8000, 0xF000)
  | .not _ _ _ => (0x9000, 0xF000)
  | .ldi _ _ => (0xA000, 0xF000)
  | .sti _ _ => (0xB000, 0xF000)
  | .jmp _ _ _ => (0xC000, 0xF000)
  | .res _ => (0xD000, 0xF000)
  | .lea _ _ => (0xE000, 0xF000)
  | .trap _ => (0xF000, 0xF000)
  | .trapGetc _ => (0xF020, 0xF0FF)
  | .trapOut _ => (0xF021, 0xF0FF)
  | .trapPuts _ => (0xF022, 0xF0FF)
  | .trapIn _ => (0xF023, 0xF0FF)
  | .trapPutsp _ => (0xF024, 0xF0FF)
  | .trapHalt _ => (0xF025, 0xF0FF)
  | .trapOther _ _ => (0xF000, 0xF000)
  | .ret => (0xC1C0, 0xFFFF)
  | .nop => (0x0000, 0xFFFF)

/-- The instruction's word matches its row. -/
def Statement (i : Instr) : Prop := encode i &&& (row i).2 = (row i).1

/-- A word meets a mask and a match when each of its bits does. -/
theorem of_bits {w mask pat : Word} (h : ∀ k, k < 16 → (w.getLsbD k && mask.getLsbD k) = pat.getLsbD k) :
    w &&& mask = pat := by
  apply BitVec.eq_of_getLsbD_eq
  intro k hk
  rw [BitVec.getLsbD_and, h k hk]

end Sys2Proof.Laws.RowMatch

open Sys2Proof

theorem Sys2Proof.Laws.RowMatch.br (n z p : Bool) (off9 : BitVec 9) : Sys2Proof.Laws.RowMatch.Statement (.br n z p off9) := by
  refine Sys2Proof.Laws.RowMatch.of_bits fun k hk => ?_
  simp only [Sys2Proof.Laws.RowMatch.row, encode, getLsbD_wordOf, BitVec.getLsbD_append]
  interval_cases k <;> simp

theorem Sys2Proof.Laws.RowMatch.addReg (dr sr1 : RegIdx) (dc : BitVec 2) (sr2 : RegIdx) : Sys2Proof.Laws.RowMatch.Statement (.addReg dr sr1 dc sr2) := by
  refine Sys2Proof.Laws.RowMatch.of_bits fun k hk => ?_
  simp only [Sys2Proof.Laws.RowMatch.row, encode, getLsbD_wordOf, BitVec.getLsbD_append]
  interval_cases k <;> simp

theorem Sys2Proof.Laws.RowMatch.addImm (dr sr1 : RegIdx) (imm5 : BitVec 5) : Sys2Proof.Laws.RowMatch.Statement (.addImm dr sr1 imm5) := by
  refine Sys2Proof.Laws.RowMatch.of_bits fun k hk => ?_
  simp only [Sys2Proof.Laws.RowMatch.row, encode, getLsbD_wordOf, BitVec.getLsbD_append]
  interval_cases k <;> simp

theorem Sys2Proof.Laws.RowMatch.ld (dr : RegIdx) (off9 : BitVec 9) : Sys2Proof.Laws.RowMatch.Statement (.ld dr off9) := by
  refine Sys2Proof.Laws.RowMatch.of_bits fun k hk => ?_
  simp only [Sys2Proof.Laws.RowMatch.row, encode, getLsbD_wordOf, BitVec.getLsbD_append]
  interval_cases k <;> simp

theorem Sys2Proof.Laws.RowMatch.st (sr : RegIdx) (off9 : BitVec 9) : Sys2Proof.Laws.RowMatch.Statement (.st sr off9) := by
  refine Sys2Proof.Laws.RowMatch.of_bits fun k hk => ?_
  simp only [Sys2Proof.Laws.RowMatch.row, encode, getLsbD_wordOf, BitVec.getLsbD_append]
  interval_cases k <;> simp

theorem Sys2Proof.Laws.RowMatch.jsr (off11 : BitVec 11) : Sys2Proof.Laws.RowMatch.Statement (.jsr off11) := by
  refine Sys2Proof.Laws.RowMatch.of_bits fun k hk => ?_
  simp only [Sys2Proof.Laws.RowMatch.row, encode, getLsbD_wordOf, BitVec.getLsbD_append]
  interval_cases k <;> simp

theorem Sys2Proof.Laws.RowMatch.jsrr (dcHi : BitVec 2) (base : RegIdx) (dcLo : BitVec 6) : Sys2Proof.Laws.RowMatch.Statement (.jsrr dcHi base dcLo) := by
  refine Sys2Proof.Laws.RowMatch.of_bits fun k hk => ?_
  simp only [Sys2Proof.Laws.RowMatch.row, encode, getLsbD_wordOf, BitVec.getLsbD_append]
  interval_cases k <;> simp

theorem Sys2Proof.Laws.RowMatch.andReg (dr sr1 : RegIdx) (dc : BitVec 2) (sr2 : RegIdx) : Sys2Proof.Laws.RowMatch.Statement (.andReg dr sr1 dc sr2) := by
  refine Sys2Proof.Laws.RowMatch.of_bits fun k hk => ?_
  simp only [Sys2Proof.Laws.RowMatch.row, encode, getLsbD_wordOf, BitVec.getLsbD_append]
  interval_cases k <;> simp

theorem Sys2Proof.Laws.RowMatch.andImm (dr sr1 : RegIdx) (imm5 : BitVec 5) : Sys2Proof.Laws.RowMatch.Statement (.andImm dr sr1 imm5) := by
  refine Sys2Proof.Laws.RowMatch.of_bits fun k hk => ?_
  simp only [Sys2Proof.Laws.RowMatch.row, encode, getLsbD_wordOf, BitVec.getLsbD_append]
  interval_cases k <;> simp

theorem Sys2Proof.Laws.RowMatch.ldr (dr base : RegIdx) (off6 : BitVec 6) : Sys2Proof.Laws.RowMatch.Statement (.ldr dr base off6) := by
  refine Sys2Proof.Laws.RowMatch.of_bits fun k hk => ?_
  simp only [Sys2Proof.Laws.RowMatch.row, encode, getLsbD_wordOf, BitVec.getLsbD_append]
  interval_cases k <;> simp

theorem Sys2Proof.Laws.RowMatch.str (sr base : RegIdx) (off6 : BitVec 6) : Sys2Proof.Laws.RowMatch.Statement (.str sr base off6) := by
  refine Sys2Proof.Laws.RowMatch.of_bits fun k hk => ?_
  simp only [Sys2Proof.Laws.RowMatch.row, encode, getLsbD_wordOf, BitVec.getLsbD_append]
  interval_cases k <;> simp

theorem Sys2Proof.Laws.RowMatch.rti (dc : BitVec 12) : Sys2Proof.Laws.RowMatch.Statement (.rti dc) := by
  refine Sys2Proof.Laws.RowMatch.of_bits fun k hk => ?_
  simp only [Sys2Proof.Laws.RowMatch.row, encode, getLsbD_wordOf, BitVec.getLsbD_append]
  interval_cases k <;> simp

theorem Sys2Proof.Laws.RowMatch.not (dr sr1 : RegIdx) (dc : BitVec 6) : Sys2Proof.Laws.RowMatch.Statement (.not dr sr1 dc) := by
  refine Sys2Proof.Laws.RowMatch.of_bits fun k hk => ?_
  simp only [Sys2Proof.Laws.RowMatch.row, encode, getLsbD_wordOf, BitVec.getLsbD_append]
  interval_cases k <;> simp

theorem Sys2Proof.Laws.RowMatch.ldi (dr : RegIdx) (off9 : BitVec 9) : Sys2Proof.Laws.RowMatch.Statement (.ldi dr off9) := by
  refine Sys2Proof.Laws.RowMatch.of_bits fun k hk => ?_
  simp only [Sys2Proof.Laws.RowMatch.row, encode, getLsbD_wordOf, BitVec.getLsbD_append]
  interval_cases k <;> simp

theorem Sys2Proof.Laws.RowMatch.sti (sr : RegIdx) (off9 : BitVec 9) : Sys2Proof.Laws.RowMatch.Statement (.sti sr off9) := by
  refine Sys2Proof.Laws.RowMatch.of_bits fun k hk => ?_
  simp only [Sys2Proof.Laws.RowMatch.row, encode, getLsbD_wordOf, BitVec.getLsbD_append]
  interval_cases k <;> simp

theorem Sys2Proof.Laws.RowMatch.jmp (dcHi : BitVec 3) (base : RegIdx) (dcLo : BitVec 6) : Sys2Proof.Laws.RowMatch.Statement (.jmp dcHi base dcLo) := by
  refine Sys2Proof.Laws.RowMatch.of_bits fun k hk => ?_
  simp only [Sys2Proof.Laws.RowMatch.row, encode, getLsbD_wordOf, BitVec.getLsbD_append]
  interval_cases k <;> simp

theorem Sys2Proof.Laws.RowMatch.res (dc : BitVec 12) : Sys2Proof.Laws.RowMatch.Statement (.res dc) := by
  refine Sys2Proof.Laws.RowMatch.of_bits fun k hk => ?_
  simp only [Sys2Proof.Laws.RowMatch.row, encode, getLsbD_wordOf, BitVec.getLsbD_append]
  interval_cases k <;> simp

theorem Sys2Proof.Laws.RowMatch.lea (dr : RegIdx) (off9 : BitVec 9) : Sys2Proof.Laws.RowMatch.Statement (.lea dr off9) := by
  refine Sys2Proof.Laws.RowMatch.of_bits fun k hk => ?_
  simp only [Sys2Proof.Laws.RowMatch.row, encode, getLsbD_wordOf, BitVec.getLsbD_append]
  interval_cases k <;> simp

theorem Sys2Proof.Laws.RowMatch.trap (vect : BitVec 8) : Sys2Proof.Laws.RowMatch.Statement (.trap vect) := by
  refine Sys2Proof.Laws.RowMatch.of_bits fun k hk => ?_
  simp only [Sys2Proof.Laws.RowMatch.row, encode, getLsbD_wordOf, BitVec.getLsbD_append]
  interval_cases k <;> simp

theorem Sys2Proof.Laws.RowMatch.trapGetc (dc : BitVec 4) : Sys2Proof.Laws.RowMatch.Statement (.trapGetc dc) := by
  refine Sys2Proof.Laws.RowMatch.of_bits fun k hk => ?_
  simp only [Sys2Proof.Laws.RowMatch.row, encode, getLsbD_wordOf, BitVec.getLsbD_append]
  interval_cases k <;> simp

theorem Sys2Proof.Laws.RowMatch.trapOut (dc : BitVec 4) : Sys2Proof.Laws.RowMatch.Statement (.trapOut dc) := by
  refine Sys2Proof.Laws.RowMatch.of_bits fun k hk => ?_
  simp only [Sys2Proof.Laws.RowMatch.row, encode, getLsbD_wordOf, BitVec.getLsbD_append]
  interval_cases k <;> simp

theorem Sys2Proof.Laws.RowMatch.trapPuts (dc : BitVec 4) : Sys2Proof.Laws.RowMatch.Statement (.trapPuts dc) := by
  refine Sys2Proof.Laws.RowMatch.of_bits fun k hk => ?_
  simp only [Sys2Proof.Laws.RowMatch.row, encode, getLsbD_wordOf, BitVec.getLsbD_append]
  interval_cases k <;> simp

theorem Sys2Proof.Laws.RowMatch.trapIn (dc : BitVec 4) : Sys2Proof.Laws.RowMatch.Statement (.trapIn dc) := by
  refine Sys2Proof.Laws.RowMatch.of_bits fun k hk => ?_
  simp only [Sys2Proof.Laws.RowMatch.row, encode, getLsbD_wordOf, BitVec.getLsbD_append]
  interval_cases k <;> simp

theorem Sys2Proof.Laws.RowMatch.trapPutsp (dc : BitVec 4) : Sys2Proof.Laws.RowMatch.Statement (.trapPutsp dc) := by
  refine Sys2Proof.Laws.RowMatch.of_bits fun k hk => ?_
  simp only [Sys2Proof.Laws.RowMatch.row, encode, getLsbD_wordOf, BitVec.getLsbD_append]
  interval_cases k <;> simp

theorem Sys2Proof.Laws.RowMatch.trapHalt (dc : BitVec 4) : Sys2Proof.Laws.RowMatch.Statement (.trapHalt dc) := by
  refine Sys2Proof.Laws.RowMatch.of_bits fun k hk => ?_
  simp only [Sys2Proof.Laws.RowMatch.row, encode, getLsbD_wordOf, BitVec.getLsbD_append]
  interval_cases k <;> simp

theorem Sys2Proof.Laws.RowMatch.trapOther (dc : BitVec 4) (vect : BitVec 8) : Sys2Proof.Laws.RowMatch.Statement (.trapOther dc vect) := by
  refine Sys2Proof.Laws.RowMatch.of_bits fun k hk => ?_
  simp only [Sys2Proof.Laws.RowMatch.row, encode, getLsbD_wordOf, BitVec.getLsbD_append]
  interval_cases k <;> simp

theorem Sys2Proof.Laws.RowMatch.ret : Sys2Proof.Laws.RowMatch.Statement .ret := by
  rfl

theorem Sys2Proof.Laws.RowMatch.nop : Sys2Proof.Laws.RowMatch.Statement .nop := by
  rfl
end

