-- ==== Sys2Proof/Tests/Slice0.lean ====
section
/-! SUPPORT. The model's own tests: expected results are the vectors of 95_test_vectors.md (named S, A, N, O, L, E, W, B, J, T,
R, K, LD there) and the examples of the rules; then the smoke tests of WellFormed, and a witness for every statement that has
hypotheses. -/

namespace Sys2Proof.Tests

open Sys2Proof Sys2Proof.Machine

/-- The reset state with a pc, some cells, some registers and some input. -/
def start (pc : Word) (cells : List (Word × Word)) (regs : List (RegIdx × Word)) (kbd : List Byte) : State :=
  regs.foldl (fun s c => s.setReg c.1 c.2)
    (cells.foldl (fun s c => s.setCell c.1 c.2) { State.reset with pc := pc, kbdIn := kbd })

/-- The next state of an outcome (the reset state where there is none). -/
def next : Host.Outcome State Fault Refusal → State
  | .next t => t
  | .fault _ => State.reset
  | .refused _ => State.reset

/-- The outcome is a next state. -/
def isNext : Host.Outcome State Fault Refusal → Bool
  | .next _ => true
  | .fault _ => false
  | .refused _ => false

/-! ## Decoding: every constructor by a word written out from its format (R51, R54) -/

theorem test_decode_br : decode 0b0000001111111101 = .br false false true 0x1FD := by decide
theorem test_decode_addReg : decode 0b0001000001011010 = .addReg 0 1 3 2 := by decide
theorem test_decode_addImm : decode 0b0001000000111111 = .addImm 0 0 0x1F := by decide
theorem test_decode_ld : decode 0b0010010111111101 = .ld 2 0x1FD := by decide
theorem test_decode_st : decode 0b0011000000000001 = .st 0 1 := by decide
theorem test_decode_jsr : decode 0b0100100000000101 = .jsr 5 := by decide
theorem test_decode_jsrr : decode 0b0100010011100001 = .jsrr 2 3 0x21 := by decide
theorem test_decode_andReg : decode 0b0101000001000010 = .andReg 0 1 0 2 := by decide
theorem test_decode_andImm : decode 0b0101011011101111 = .andImm 3 3 0xF := by decide
theorem test_decode_ldr : decode 0b0110000001111111 = .ldr 0 1 0x3F := by decide
theorem test_decode_str : decode 0b0111011110011111 = .str 3 6 0x1F := by decide
theorem test_decode_rti : decode 0b1000101010111100 = .rti 0xABC := by decide
theorem test_decode_not : decode 0b1001100100111111 = .not 4 4 0x3F := by decide
theorem test_decode_ldi : decode 0b1010100000001001 = .ldi 4 9 := by decide
theorem test_decode_sti : decode 0b1011100000001000 = .sti 4 8 := by decide
theorem test_decode_jmp : decode 0b1100111010111111 = .jmp 7 2 0x3F := by decide
theorem test_decode_res : decode 0b1101111111111111 = .res 0xFFF := by decide
theorem test_decode_lea : decode 0b1110001000001101 = .lea 1 13 := by decide
theorem test_decode_trap : decode 0b1111000011111111 = .trap 0xFF := by decide
theorem test_decode_trapGetc : decode 0b1111000000100000 = .trapGetc 0 := by decide
theorem test_decode_trapOut : decode 0b1111000000100001 = .trapOut 0 := by decide
theorem test_decode_trapPuts : decode 0b1111000000100010 = .trapPuts 0 := by decide
theorem test_decode_trapIn : decode 0b1111000000100011 = .trapIn 0 := by decide
theorem test_decode_trapPutsp : decode 0b1111000000100100 = .trapPutsp 0 := by decide
theorem test_decode_trapHalt : decode 0b1111111100100101 = .trapHalt 0xF := by decide
theorem test_decode_trapOther : decode 0b1111010100100110 = .trapOther 5 0x26 := by decide
theorem test_decode_ret : decode 0b1100000111000000 = .ret := by decide
theorem test_decode_nop : decode 0b0000000000000000 = .nop := by decide
theorem test_decodeTableWord : decodeTableWord 16 0xF025 = some (.trapHalt 0) ∧ decodeTableWord 17 0xF025 = none := by
  decide

/-! ## WellFormed refuses an ill-formed term, one for each of its checks -/

theorem test_illFormed_br : (Instr.br false false false 0).wellFormed = false := by decide
theorem test_illFormed_jmp : (Instr.jmp 0 7 0).wellFormed = false := by decide
theorem test_illFormed_trap : (Instr.trap 0x25).wellFormed = false := by decide
theorem test_illFormed_trapOther_canonical : (Instr.trapOther 0 0x26).wellFormed = false := by decide
theorem test_illFormed_trapOther_served : (Instr.trapOther 1 0x20).wellFormed = false := by decide

/-! ## sext (vectors of 2.1) -/

theorem test_sext : sext 5 0x1F = 0xFFFF ∧ sext 5 0x10 = 0xFFF0 ∧ sext 5 0x0F = 0x000F ∧ sext 5 0xFFFF = 0xFFFF ∧
    sext 6 0x20 = 0xFFE0 ∧ sext 9 0x100 = 0xFF00 ∧ sext 11 0x400 = 0xFC00 ∧ sext 11 0x3FF = 0x3FF ∧
    sext 16 0xABCD = 0xABCD ∧ sext 1 1 = 0xFFFF ∧ sext 1 0 = 0 := by decide

/-! ## Operate -/

/-- S7, A1. -/
theorem test_addReg : (next (step (start 0x3000 [(0x3000, 0x1042)] [(1, 5), (2, 3)] []))).reg 0 = 8 := by decide
/-- A3, A4: the sum wraps; signed overflow is silent. -/
theorem test_addReg_wraps :
    (next (step (start 0x3000 [(0x3000, 0x1042)] [(1, 0xFFFF), (2, 1)] []))).cond = .zero ∧
      (next (step (start 0x3000 [(0x3000, 0x1042)] [(1, 0x7FFF), (2, 1)] []))).cond = .neg := by decide
/-- S8, A2. -/
theorem test_addImm : (next (step (start 0x3000 [(0x3000, 0x103F)] [(0, 1)] []))).cond = .zero := by decide
/-- A7. -/
theorem test_addImm_min : (next (step (start 0x3000 [(0x3000, 0x1030)] [(0, 0x10)] []))).reg 0 = 0 := by decide
/-- N1. -/
theorem test_andReg :
    (next (step (start 0x3000 [(0x3000, 0x5042)] [(1, 0xF0F0), (2, 0x8FF1)] []))).reg 0 = 0x80F0 := by decide
/-- N3, N5. -/
theorem test_andImm :
    (next (step (start 0x3000 [(0x3000, 0x56EF)] [(3, 0x1234)] []))).reg 3 = 4 ∧
      (next (step (start 0x3000 [(0x3000, 0x5070)] [(1, 0xABCD)] []))).reg 0 = 0xABC0 := by decide
/-- O1, O4: the don't-care bits of NOT are ignored. -/
theorem test_not :
    (next (step (start 0x3000 [(0x3000, 0x993F)] [(4, 0x8000)] []))).reg 4 = 0x7FFF ∧
      (next (step (start 0x3000 [(0x3000, 0x9040)] [(1, 0x00FF)] []))).reg 0 = 0xFF00 := by decide

/-! ## Data movement -/

/-- L1. -/
theorem test_ld :
    (next (step (start 0x3010 [(0x3010, 0x25FD), (0x300E, 0xBEEF)] [] []))).reg 2 = 0xBEEF := by decide
/-- L4: pc and the address wrap. -/
theorem test_ld_wraps : (next (step (start 0xFFFF [(0xFFFF, 0x2000), (0x0000, 0x42)] [] []))).reg 0 = 0x42 := by
  decide
/-- L7: LDI through KBSR polls, consumes and latches. -/
theorem test_ldi_kbsr :
    (fun t : State => (t.reg 0, t.cell 0xFE02, t.kbdIn))
      (next (step (start 0x3000 [(0x3000, 0xA000), (0x3001, 0xFE00)] [] [0x61]))) = (0x8000, 0x61, []) := by decide
/-- L9: KBDR is a plain read. -/
theorem test_ldi_kbdr :
    (fun t : State => (t.reg 0, t.kbdIn))
      (next (step (start 0x3000 [(0x3000, 0xA000), (0x3001, 0xFE02), (0xFE02, 0x61)] [] [0x62]))) = (0x61, [0x62]) := by
  decide
/-- L12: DR is also the base. -/
theorem test_ldr_same :
    (next (step (start 0x3000 [(0x3000, 0x6240), (0x4000, 0x5000)] [(1, 0x4000)] []))).reg 1 = 0x5000 := by decide
/-- L13. -/
theorem test_ldr_wraps :
    (next (step (start 0x3000 [(0x3000, 0x6BA0), (0xFFF0, 0x8001)] [(6, 0x10)] []))).reg 5 = 0x8001 := by decide
/-- E1. -/
theorem test_lea : (next (step (start 0x3000 [(0x3000, 0xE20D)] [] []))).reg 1 = 0x300E := by decide
/-- E5: LEA of 0xFE00 does not poll. -/
theorem test_lea_no_poll :
    (fun t : State => (t.reg 0, t.cond, t.kbdIn)) (next (step (start 0xFDFF [(0xFDFF, 0xE000)] [] [0x61]))) =
      (0xFE00, .neg, [0x61]) := by decide
/-- W1. -/
theorem test_st : (next (step (start 0x3006 [(0x3006, 0x3001)] [(0, 0xF)] []))).cell 0x3008 = 0xF := by decide
/-- W10: a store to KBSR never polls. -/
theorem test_st_kbsr :
    (fun t : State => (t.cell 0xFE00, t.kbdIn)) (next (step (start 0xFDFF [(0xFDFF, 0x3000)] [(0, 0x9999)] [0x61]))) =
      (0x9999, [0x61]) := by decide
/-- W5: the store overwrites its own pointer. -/
theorem test_sti :
    (next (step (start 0x3000 [(0x3000, 0xB000), (0x3001, 0x3001)] [(0, 0xAAAA)] []))).cell 0x3001 = 0xAAAA := by decide
/-- W8: the address wraps. -/
theorem test_str :
    (next (step (start 0x3000 [(0x3000, 0x779F)] [(6, 0xFFF0), (3, 0xCAFE)] []))).cell 0x000F = 0xCAFE := by decide

/-! ## Control -/

/-- B2 and B10: cond is Z at reset. -/
theorem test_br :
    (next (step (start 0x3005 [(0x3005, 0x03FD)] [] []))).pc = 0x3006 ∧
      (next (step (start 0x3000 [(0x3000, 0x0405)] [] []))).pc = 0x3006 := by decide
/-- B9: the target wraps. -/
theorem test_br_wraps : (next (step (start 0xFFFE [(0xFFFE, 0x0402)] [] []))).pc = 0x0001 := by decide
/-- B3. -/
theorem test_nop : (next (step (start 0x3000 [] [] []))).pc = 0x3001 := by decide
/-- J3: don't-care bits ignored. -/
theorem test_jmp : (next (step (start 0x3000 [(0x3000, 0xCEBF)] [(2, 0x4000)] []))).pc = 0x4000 := by decide
/-- J2. -/
theorem test_ret : (next (step (start 0x3000 [(0x3000, 0xC1C0)] [(7, 0x3003)] []))).pc = 0x3003 := by decide
/-- J6. -/
theorem test_jsr :
    (fun t : State => (t.reg 7, t.pc)) (next (step (start 0x3000 [(0x3000, 0x4C00)] [] []))) = (0x3001, 0x2C01) := by
  decide
/-- J8. -/
theorem test_jsrr :
    (fun t : State => (t.reg 7, t.pc)) (next (step (start 0x3001 [(0x3001, 0x40C0)] [(3, 0x5000)] []))) =
      (0x3002, 0x5000) := by decide
/-- J9: the link is written before the base is read. -/
theorem test_jsrr_r7 : (next (step (start 0x3001 [(0x3001, 0x41C0)] [(7, 0x3006)] []))).pc = 0x3002 := by decide

/-! ## TRAP, services, reserved opcodes -/

/-- T1, S6. -/
theorem test_halt :
    (fun t : State => (t.reg 7, t.pc, t.runState)) (next (step (start 0x3000 [(0x3000, 0xF025)] [] []))) =
      (0x3001, 0x3001, .halted) := by decide
/-- T1: the output is the notice. -/
theorem test_halt_notice :
    (next (step (start 0x3000 [(0x3000, 0xF025)] [] []))).conOut = Config.haltNotice := rfl
/-- T15: the byte is zero-extended, never negative. -/
theorem test_getc :
    (fun t : State => (t.reg 0, t.cond, t.conOut)) (next (step (start 0x3000 [(0x3000, 0xF020)] [] [0xFF]))) =
      (0xFF, .pos, []) := by decide
/-- G1: the hold. -/
theorem test_getc_holds :
    (fun t : State => (t.reg 7, t.runState, t.pending)) (next (step (start 0x3000 [(0x3000, 0xF020)] [] []))) =
      (0x3001, .running, some .getc) := by decide
/-- T4. -/
theorem test_out : (next (step (start 0x3000 [(0x3000, 0xF021)] [(0, 0x41)] []))).conOut = [0x41] := by decide
/-- T6. -/
theorem test_puts :
    (next (step (start 0x3000 [(0x3000, 0xF022), (0x300F, 0x4F), (0x3010, 0x4B)] [(0, 0x300F)] []))).conOut =
      [0x4F, 0x4B] := by decide
/-- T14: the address wraps. -/
theorem test_puts_wraps :
    (next (step (start 0x3000 [(0x3000, 0xF022), (0xFFFF, 0x58), (0, 0x59)] [(0, 0xFFFF)] []))).conOut =
      [0x58, 0x59] := by decide
/-- T8. -/
theorem test_in :
    (fun t : State => (t.reg 0, t.reg 7, t.cond, t.kbdIn)) (next (step (start 0x3000 [(0x3000, 0xF023)] [] [0x79]))) =
      (0x79, 0x3001, .pos, []) := by decide
/-- T10: a zero low byte ends it. -/
theorem test_putsp :
    (next (step (start 0x3000 [(0x3000, 0xF024), (0x4000, 0x6548), (0x4001, 0x4100), (0x4002, 0x41)]
      [(0, 0x4000)] []))).conOut = [0x48, 0x65] := by decide
/-- T9: a zero high byte does not. -/
theorem test_putsp_goes_on :
    (next (step (start 0x3000 [(0x3000, 0xF024), (0x4000, 0x6548), (0x4001, 0x6C)] [(0, 0x4000)] []))).conOut =
      [0x48, 0x65, 0x6C] := by decide
/-- T11. -/
theorem test_other_vector :
    step (start 0x3000 [(0x3000, 0xF0FF)] [] []) =
      .next (start 0x3001 [(0x3000, 0xF0FF)] [(7, 0x3001)] []) := rfl
/-- T13: don't-care bits ignored. -/
theorem test_halt_stray : (next (step (start 0x3000 [(0x3000, 0xFF25)] [] []))).runState = .halted := by decide
/-- R1. -/
theorem test_rti :
    (fun t : State => (t.runState, t.pc)) (next (step (start 0x3001 [(0x3001, 0x8000)] [] []))) =
      (.fatal .rti, 0x3002) := by decide
/-- R4. -/
theorem test_res :
    (fun t : State => (t.runState, t.pc)) (next (step (start 0x3000 [(0x3000, 0xDFFF)] [] []))) =
      (.fatal .res, 0x3001) := by decide

/-! ## Keyboard and loader -/

/-- K1. -/
theorem test_fetch_kbsr :
    (fun t : State => (t.runState, t.pc, t.cell 0xFE02)) (next (step (start 0xFE00 [] [] [0x61]))) =
      (.fatal .rti, 0xFE01, 0x61) := by decide
/-- K3: the second poll overwrites KBDR. -/
theorem test_poll_twice :
    (((start 0x3000 [] [] [0x61, 0x62]).memRead 0xFE00).2.memRead 0xFE00).2.cell 0xFE02 = 0x62 := by decide
/-- K5 (R153): a GETC after a poll takes the next character. -/
theorem test_poll_then_getc :
    (next (exec (.trapGetc 0) ((start 0x3000 [] [] [0x61, 0x62]).memRead 0xFE00).2)).reg 0 = 0x62 := by decide
/-- R7: a poll is true exactly when input is pending. -/
theorem test_conPoll : (start 0 [] [] [0x61]).conPoll = true ∧ (start 0 [] [] []).conPoll = false := by decide
/-- LD1. -/
theorem test_load : Memory.load [] [0x30, 0x00, 0x12, 0x34, 0xAB, 0xCD] = [(0x3000, 0x1234), (0x3001, 0xABCD)] := by
  decide
/-- LD2: no wrap past 0xFFFF. -/
theorem test_load_top :
    Memory.load [] [0xFF, 0xFF, 0x11, 0x11, 0x22, 0x22, 0x33, 0x33] = [(0xFFFF, 0x1111)] := by decide
/-- LD3, LD4, LD5: a trailing byte is dropped, a short image loads nothing. -/
theorem test_load_odd : Memory.load [] [0x30, 0x00, 0x12, 0x34, 0xAB] = [(0x3000, 0x1234)] ∧
    Memory.load [] [0x30] = [] ∧ Memory.load [] [0x30, 0x00] = [] := by decide
/-- LD6: a later image overwrites. -/
theorem test_load_twice :
    (State.boot [[0x30, 0, 0x11, 0x11, 0x22, 0x22], [0x30, 1, 0x33, 0x33]] []).mem =
      [(0x3000, 0x1111), (0x3001, 0x3333)] := by decide
/-- A byte that arrives during a hold lifts it (R102). -/
theorem test_arrival_lifts_hold :
    (fun t : State => (t.reg 0, t.pending))
      (next ((start 0x3000 [(0x3000, 0xF020)] [] []).runUnder [[], [0x61]])) = (0x61, none) := by decide
/-- withFetchWord places the word the next step runs. -/
theorem test_withFetchWord : (next (step (State.reset.withFetchWord 16 0x1021))).reg 0 = 1 := by decide

/-! ## Witnesses: for every statement with hypotheses, values that meet them -/

theorem witness_DecodeEncodeRoundTrip :
    WellFormed (.br false false false 1) ∧ WellFormed (.jmp 0 7 1) ∧ WellFormed (.trap 0x26) ∧
      WellFormed (.trapOther 1 0x1F) := by decide

theorem witness_DecodeFollowsOpcodeTable :
    (0x0000 &&& 0xFFFF = (0x0000 : Word)) ∧ (0xC1C0 &&& 0xFFFF = (0xC1C0 : Word)) ∧
    ((0x0FFF &&& 0xF000 = (0x0000 : Word)) ∧ (0x0FFF : Word) ≠ 0) ∧ (0x1FDF &&& 0xF020 = (0x1000 : Word)) ∧
    (0x1FFF &&& 0xF020 = (0x1020 : Word)) ∧ (0x2FFF &&& 0xF000 = (0x2000 : Word)) ∧
    (0x3FFF &&& 0xF000 = (0x3000 : Word)) ∧ (0x4FFF &&& 0xF800 = (0x4800 : Word)) ∧
    (0x47FF &&& 0xF800 = (0x4000 : Word)) ∧ (0x5FDF &&& 0xF020 = (0x5000 : Word)) ∧
    (0x5FFF &&& 0xF020 = (0x5020 : Word)) ∧ (0x6FFF &&& 0xF000 = (0x6000 : Word)) ∧
    (0x7FFF &&& 0xF000 = (0x7000 : Word)) ∧ (0x8FFF &&& 0xF000 = (0x8000 : Word)) ∧
    (0x9FFF &&& 0xF000 = (0x9000 : Word)) ∧ (0xAFFF &&& 0xF000 = (0xA000 : Word)) ∧
    (0xBFFF &&& 0xF000 = (0xB000 : Word)) ∧ ((0xC1C1 &&& 0xF000 = (0xC000 : Word)) ∧ (0xC1C1 : Word) ≠ 0xC1C0) ∧
    (0xDFFF &&& 0xF000 = (0xD000 : Word)) ∧ (0xEFFF &&& 0xF000 = (0xE000 : Word)) ∧
    (0xFF20 &&& 0xF0FF = (0xF020 : Word)) ∧ (0xFF21 &&& 0xF0FF = (0xF021 : Word)) ∧
    (0xFF22 &&& 0xF0FF = (0xF022 : Word)) ∧ (0xFF23 &&& 0xF0FF = (0xF023 : Word)) ∧
    (0xFF24 &&& 0xF0FF = (0xF024 : Word)) ∧ (0xFF25 &&& 0xF0FF = (0xF025 : Word)) ∧
    ((0xF01F &&& 0xF000 = (0xF000 : Word)) ∧ servedVector ((0xF01F : Word).extractLsb' 0 8) = false) ∧
    ((0xFF26 &&& 0xF000 = (0xF000 : Word)) ∧ servedVector ((0xFF26 : Word).extractLsb' 0 8) = false) := by decide

theorem witness_DontCareBitsIgnored :
    (0x1042 &&& 0xF020 = (0x1000 : Word) ∧ 0x1042 &&& 0xFFE7 = (0x105A &&& 0xFFE7 : Word)) ∧
    (0x5042 &&& 0xF020 = (0x5000 : Word) ∧ 0x5042 &&& 0xFFE7 = (0x505A &&& 0xFFE7 : Word)) ∧
    (0x903F &&& 0xF000 = (0x9000 : Word) ∧ 0x903F &&& 0xFFC0 = (0x9000 &&& 0xFFC0 : Word)) ∧
    (0xC1C0 &&& 0xF000 = (0xC000 : Word) ∧ 0xC1C0 &&& 0xF1C0 = (0xCFFF &&& 0xF1C0 : Word)) ∧
    (0x41C0 &&& 0xF800 = (0x4000 : Word) ∧ 0x41C0 &&& 0xF9C0 = (0x47FF &&& 0xF9C0 : Word)) ∧
    (0xF026 &&& 0xF000 = (0xF000 : Word) ∧ 0xF026 &&& 0xF0FF = (0xFF26 &&& 0xF0FF : Word)) ∧
    (0x8000 &&& 0xF000 = (0x8000 : Word) ∧ 0x8000 &&& 0xF000 = (0x8FFF &&& 0xF000 : Word)) ∧
    (0xD000 &&& 0xF000 = (0xD000 : Word) ∧ 0xD000 &&& 0xF000 = (0xDFFF &&& 0xF000 : Word)) := by decide

/-- For StepRunsDecodedInstruction and StoreSeenByNextFetch. -/
theorem witness_running_outside_service :
    State.reset.runState = .running ∧ State.reset.pending = none ∧ State.reset.pc ≠ 0xFE00 := by decide

theorem witness_FetchFromKbsrPolls :
    (start 0xFE00 [] [] [0x61]).runState = .running ∧ (start 0xFE00 [] [] [0x61]).pending = none ∧
      (start 0xFE00 [] [] [0x61]).pc = 0xFE00 ∧ (start 0xFE00 [] [] []).pc = 0xFE00 := by decide

/-- For BootStartsAt3000: nothing loaded at 0x3000. -/
theorem witness_BootStartsAt3000 : (State.boot [[0x40, 0x00, 0xF0, 0x25]] []).cell 0x3000 = 0x0000 := by decide

/-- The last word that fits, at origin 0xFFFF; the next one does not. -/
theorem witness_LoadStoresImageWords :
    2 * 0 + 1 < [(0x11 : Byte), 0x11, 0x22, 0x22].length ∧ ((0xFF : Byte) ++ (0xFF : Byte) : Word).toNat + 0 ≤ 0xFFFF ∧
      ¬ ((0xFF : Byte) ++ (0xFF : Byte) : Word).toNat + 1 ≤ 0xFFFF := by decide

/-- An address no word of that image goes to: 0x0000, since a load does not wrap. -/
theorem witness_LoadStoresImageWords_other (k : Nat) (_ : 2 * k + 1 < [(0x11 : Byte), 0x11, 0x22, 0x22].length)
    (_ : ((0xFF : Byte) ++ (0xFF : Byte) : Word).toNat + k ≤ 0xFFFF) :
    (0 : Nat) ≠ ((0xFF : Byte) ++ (0xFF : Byte) : Word).toNat + k := by
  have : ((0xFF : Byte) ++ (0xFF : Byte) : Word).toNat = 0xFFFF := by decide
  omega

/-- The images too short to have an origin. -/
theorem witness_LoadStoresImageWords_short : ([] : List Byte).length < 2 ∧ [(0x30 : Byte)].length < 2 := by decide

theorem witness_MemReadPollsOnlyAtKbsr : (0xFE02 : Word) ≠ 0xFE00 ∧ (0xFDFF : Word) ≠ 0xFE00 := by decide

theorem witness_SetFlagsBySign :
    ((0x8000 : Word) ≠ 0 ∧ (0x8000 : Word).getLsbD 15 = true) ∧ ((0xFFFF : Word) ≠ 0 ∧ (0xFFFF : Word).getLsbD 15 = true) ∧
      ((0x7FFF : Word) ≠ 0 ∧ (0x7FFF : Word).getLsbD 15 = false) ∧ ((1 : Word) ≠ 0 ∧ (1 : Word).getLsbD 15 = false) := by
  decide

theorem witness_CondKeptByOthers :
    (Instr.jsr 0).flagTested = none ∧ isNext (exec (.jsr 0) State.reset) = true := by decide

/-- A step inside a service, for CondKeptByOthers, RunStateTransitions, PcChangedOnlyByTransfers, RegistersChangedOnlyAsListed
and MemoryChangedOnlyByStoresAndHandler: a PUTS that goes on, a GETC that goes on holding, both RUNNING. -/
theorem witness_service_step :
    (fun s : State => s.runState = .running ∧ s.pending = some (.puts 0xFE00) ∧ (Pending.puts 0xFE00).flagTested = none ∧
      (Pending.puts 0xFE00).readsKbsr = true ∧ isNext (step s) = true)
      { State.reset with pending := some (.puts 0xFE00) } ∧
    (fun s : State => s.runState = .running ∧ s.pending = some .getc ∧ (next (step s)).pending ≠ none ∧
      Pending.getc.readsKbsr = false ∧ isNext (step s) = true) { State.reset with pending := some .getc } := by decide

/-- A hold that ends, for the second clause of CondMatchesWrittenRegister. -/
theorem witness_CondMatchesWrittenRegister_service :
    (fun s : State => s.runState = .running ∧ s.pending = some .inRead ∧ Pending.inRead.flagTested = some 0 ∧
      isNext (step s) = true ∧ (next (step s)).pending = none)
      { State.reset with pending := some .inRead, kbdIn := [0x00] } := by decide

theorem witness_CondMatchesWrittenRegister :
    (Instr.addImm 0 0 0).flagTested = some 0 ∧ (next (exec (.addImm 0 0 0) State.reset)).pending = none ∧
      (Instr.trapGetc 0).flagTested = some 0 ∧
      (next (exec (.trapGetc 0) (start 0x3001 [] [] [0]))).pending = none := by decide

theorem witness_SignExtendCopiesSignBit :
    (1 ≤ 1 ∧ 1 ≤ 16 ∧ 0 < 16 ∧ 0 < 1) ∧ (1 ≤ 5 ∧ 5 ≤ 16 ∧ 4 < 16 ∧ 4 < 5) ∧ (1 ≤ 5 ∧ 5 ≤ 16 ∧ 5 < 16 ∧ ¬ 5 < 5) ∧
      (1 ≤ 16 ∧ 16 ≤ 16 ∧ 15 < 16 ∧ 15 < 16) := by decide

theorem witness_ImmediateAgreesWithRegister :
    (start 0x3000 [] [(2, 0xFFF0)] []).reg 2 = (0x10 : BitVec 5).signExtend 16 := by decide

/-- NOP and the all-ones BR. -/
theorem witness_BrTestIsMask : 0x0000 &&& 0xF000 = (0x0000 : Word) ∧ 0x0FFF &&& 0xF000 = (0x0000 : Word) := by decide

theorem witness_TrapDispatches : 0xFF20 &&& 0xF000 = (0xF000 : Word) ∧ servedVector 0x1F = false ∧ servedVector 0x26 = false ∧ servedVector 0x20 = true ∧
    servedVector 0x25 = true := by decide

/-- For GetcTakesCharacter and InPromptsAndEchoes; NoInputHolds and HoldIsTransparent. -/
theorem witness_input :
    (start 0x3001 [] [] [0x00, 0x62]).kbdIn = 0x00 :: [0x62] ∧ (start 0x3001 [] [] []).kbdIn = [] ∧
      (start 0x3001 [] [] []).runState = .running := by decide

theorem witness_HoldIsTransparent :
    isNext (exec (.trapGetc 0) (start 0x3001 [] [] [])) = true ∧ isNext (exec (.trapIn 0) (start 0x3001 [] [] [])) = true := by
  decide

/-- The largest value both readings of C3 agree on. -/
theorem witness_OutWritesCharacter : ((start 0x3001 [] [(0, 0x00FF)] []).reg 0).toNat ≤ 0x00FF := by decide

/-- A state is what a read at `a` leaves of itself where `a` is not 0xFE00. -/
theorem readEffect_self {a : Word} {s : State} (h : a ≠ 0xFE00) : State.ReadEffect a (s.cell a) s s := by
  refine ⟨rfl, ?_⟩
  rw [if_neg h]
  exact ⟨rfl, rfl, fun _ => rfl⟩

/-- PUTS: a string of two words that wraps, and the empty string, each with its terminator. -/
theorem witness_PutsWritesString :
    (fun s : State => State.ReadEffect (s.reg 0) (s.cell (s.reg 0)) s s ∧
      (∀ k, k < 2 → k ≠ 0 → s.reg 0 + BitVec.ofNat 16 k ≠ 0xFE00) ∧
      (∀ k, k < 2 → s.cell (s.reg 0 + BitVec.ofNat 16 k) ≠ 0) ∧ s.reg 0 + BitVec.ofNat 16 2 ≠ 0xFE00 ∧
      s.cell (s.reg 0 + BitVec.ofNat 16 2) = 0)
      (start 0x3001 [(0xFFFF, 0x58), (0x0000, 0x59)] [(0, 0xFFFF)] []) ∧
    (fun s : State => State.ReadEffect (s.reg 0) (s.cell (s.reg 0)) s s ∧ s.cell (s.reg 0 + BitVec.ofNat 16 0) = 0)
      (start 0x3001 [] [(0, 0x4000)] []) :=
  ⟨⟨readEffect_self (by decide), by decide⟩, ⟨readEffect_self (by decide), by decide⟩⟩

/-- PUTS: two words and then 0xFE00, before which it waits; both words are at most 0x00FF. -/
theorem witness_PutsWritesString_waits :
    (fun s : State => State.ReadEffect (s.reg 0) (s.cell (s.reg 0)) s s ∧
      (∀ k, k < 2 → k ≠ 0 → s.reg 0 + BitVec.ofNat 16 k ≠ 0xFE00) ∧
      (∀ k, k < 2 → s.cell (s.reg 0 + BitVec.ofNat 16 k) ≠ 0 ∧ (s.cell (s.reg 0 + BitVec.ofNat 16 k)).toNat ≤ 0x00FF) ∧
      s.reg 0 + BitVec.ofNat 16 2 = 0xFE00) (start 0x3001 [(0xFDFE, 0xFF), (0xFDFF, 0x01)] [(0, 0xFDFE)] []) :=
  ⟨readEffect_self (by decide), by decide⟩

/-- What a read of 0xFE00 leaves of a state with no input pending. -/
theorem readEffect_idle {s : State} (h : s.kbdIn = []) :
    State.ReadEffect 0xFE00 ((s.setCell kbsr kbsrIdle).cell 0xFE00) s (s.setCell kbsr kbsrIdle) := by
  simp [State.ReadEffect, h, kbsr, kbsrIdle]

/-- PUTS from 0xFE00 itself, with a character pending: the word 0x8000, and the zero at 0xFE01 ends it. -/
theorem witness_PutsWritesString_key :
    (fun s m : State => State.ReadEffect (s.reg 0) (m.cell (s.reg 0)) s m ∧
      (∀ k, k < 1 → k ≠ 0 → s.reg 0 + BitVec.ofNat 16 k ≠ 0xFE00) ∧
      (∀ k, k < 1 → m.cell (s.reg 0 + BitVec.ofNat 16 k) ≠ 0) ∧ m.cell (s.reg 0 + BitVec.ofNat 16 1) = 0)
      (start 0x3001 [] [(0, 0xFE00)] [0x61])
      (((start 0x3001 [] [(0, 0xFE00)] []).setCell 0xFE02 0x61).setCell 0xFE00 0x8000) := by
  refine ⟨⟨rfl, ⟨by decide, rfl, fun b => ?_⟩⟩, by decide⟩
  simp only [State.cell_setCell]
  rfl

/-- PUTS from 0xFE00 with none pending: the polled word ends it, whatever was stored there. -/
theorem witness_PutsWritesString_idle :
    (fun s m : State => State.ReadEffect (s.reg 0) (m.cell (s.reg 0)) s m ∧ m.cell (s.reg 0 + BitVec.ofNat 16 0) = 0)
      (start 0x3001 [(0xFE00, 0x41)] [(0, 0xFE00)] [])
      ((start 0x3001 [(0xFE00, 0x41)] [(0, 0xFE00)] []).setCell kbsr kbsrIdle) :=
  ⟨readEffect_idle rfl, by decide⟩

/-- PUTSP: one packed word and a zero low byte; one packed word and then 0xFE00; and nothing from 0xFE00 itself. -/
theorem witness_PutspWritesString :
    (fun s : State => State.ReadEffect (s.reg 0) (s.cell (s.reg 0)) s s ∧
      (∀ k, k < 1 → k ≠ 0 → s.reg 0 + BitVec.ofNat 16 k ≠ 0xFE00) ∧
      (∀ k, k < 1 → (s.cell (s.reg 0 + BitVec.ofNat 16 k)).extractLsb' 0 8 ≠ 0#8) ∧
      (s.cell (s.reg 0 + BitVec.ofNat 16 1)).extractLsb' 0 8 = 0#8)
      (start 0x3001 [(0x4000, 0x6548), (0x4001, 0x4100)] [(0, 0x4000)] []) ∧
    (fun s : State => State.ReadEffect (s.reg 0) (s.cell (s.reg 0)) s s ∧
      (∀ k, k < 1 → (s.cell (s.reg 0 + BitVec.ofNat 16 k)).extractLsb' 0 8 ≠ 0#8) ∧
      s.reg 0 + BitVec.ofNat 16 1 = 0xFE00) (start 0x3001 [(0xFDFF, 0x6548)] [(0, 0xFDFF)] []) ∧
    (fun s m : State => State.ReadEffect (s.reg 0) (m.cell (s.reg 0)) s m ∧
      (m.cell (s.reg 0 + BitVec.ofNat 16 0)).extractLsb' 0 8 = 0#8)
      (start 0x3001 [] [(0, 0xFE00)] []) ((start 0x3001 [] [(0, 0xFE00)] []).setCell kbsr kbsrIdle) :=
  ⟨⟨readEffect_self (by decide), by decide⟩, ⟨readEffect_self (by decide), by decide⟩, readEffect_idle rfl, by decide⟩

/-- PUTS and PUTSP meet 0xFE00 in a string, and stand before it. -/
theorem witness_StringServiceResumesAtKbsr :
    (next (exec (.trapPuts 0) (start 0x3001 [(0xFDFF, 0x58)] [(0, 0xFDFF)] []))).pending = some (.puts 0xFE00) ∧
      (next (exec (.trapPuts 0) (start 0x3001 [(0xFDFF, 0x58)] [(0, 0xFDFF)] []))).kbdIn = [] ∧
      (next (exec (.trapPuts 0) (start 0x3001 [(0xFDFF, 0x58)] [(0, 0xFDFF)] [0x61]))).kbdIn = 0x61 :: [] ∧
      (next (exec (.trapPutsp 0) (start 0x3001 [(0xFDFF, 0x58)] [(0, 0xFDFF)] []))).pending = some (.putsp 0xFE00) ∧
      (next (exec (.trapPuts 0) (start 0x3001 [(0xFDFF, 0x58)] [(0, 0xFDFF)] []))).runState = .running := by decide

/-- The third clause's string: no word after 0xFE00 but the terminator at 0xFE01, and one word, before the latched KBDR. -/
theorem witness_StringServiceResumesAtKbsr_string :
    (∀ k, k ≤ 1 → (0xFE01 : Word) + BitVec.ofNat 16 k ≠ 0xFE00) ∧
      (fun post : Word → Word => (∀ k, k < 1 → post (0xFE01 + BitVec.ofNat 16 k) ≠ 0) ∧
        post (0xFE01 + BitVec.ofNat 16 1) = 0)
        (fun b => if b = 0xFE00 then 0x8000 else if b = 0xFE02 then (0x00 : Byte).setWidth 16
          else (start 0x3001 [(0xFE01, 0x5A)] [] []).cell b) := by decide

theorem witness_TerminalStatesStay :
    (next (exec (.trapHalt 0) State.reset)).runState = .halted ∧
      (next (exec (.res 0) State.reset)).runState = .fatal .res := by decide

/-- For RunStateTransitions, RegistersChangedOnlyAsListed, PcChangedOnlyByTransfers and MemoryChangedOnlyByStoresAndHandler. -/
theorem witness_exec :
    (Instr.ldi 0 0).transfers = false ∧ (Instr.ldi 0 0).stores = false ∧ isNext (exec (.ldi 0 0) State.reset) = true := by
  decide

/-- Both branches of MemoryChangedOnlyByStoresAndHandler, and where they meet: LDI reads 0xFE00 as its pointer or through it, not
beside it. -/
theorem witness_readsKbsr :
    (Instr.ldi 0 0).readsKbsr (start 0xFE00 [] [] []) = true ∧
      (Instr.ldi 0 0).readsKbsr (start 0x3001 [(0x3001, 0xFE00)] [] []) = true ∧
      (Instr.ldi 0 0).readsKbsr (start 0x3001 [(0x3001, 0xFE01)] [] []) = false ∧
      (Instr.ldr 0 1 0x3F).readsKbsr (start 0x3001 [] [(1, 0xFE01)] []) = true ∧
      (Instr.trap 0x24).readsKbsr (start 0x3001 [] [(0, 0xFE00)] []) = true ∧
      (Instr.trap 0x21).readsKbsr (start 0x3001 [] [(0, 0xFE00)] []) = false := by decide

/-- For ConsoleStreamsInOrder and StepKeepsInvariant: a holding GETC meets the invariant, and steps. -/
theorem witness_StepKeepsInvariant :
    (next (exec (.trapGetc 0) (start 0x3001 [] [] []))).Inv ∧
      isNext (step (next (exec (.trapGetc 0) (start 0x3001 [] [] [])))) = true := by
  unfold State.Inv; decide

theorem witness_Reachable : State.Reachable (State.boot [] []) := State.Reachable.boot [] []

/-- The invariant is not met by every state: a service in progress without its link write breaks it. -/
theorem test_inv_fails : ¬ ({ State.reset with pending := some .getc } : State).Inv := by
  unfold State.Inv; decide

end Sys2Proof.Tests
end

section
/-! SUPPORT. What one step of the engine can do, said once: the forms a step, an instruction and a service take, and what every
part of a step respects. -/

namespace Sys2Proof.Machine

/-- A step that answers a next state is an instruction after its fetch, a service going on, or the rest of a HALTED engine
(R148, R102, R107). -/
theorem step_cases {s t : State} (h : step s = .next t) :
    (s.runState = .running ∧ s.pending = none ∧ exec (decode s.fetch.1) s.fetch.2 = .next t) ∨
      (∃ p, s.runState = .running ∧ s.pending = some p ∧ t = s.resume p) ∨ (s.runState = .halted ∧ t = s) := by
  unfold step at h
  split at h
  next hr =>
    split at h
    next hp => exact .inl ⟨hr, hp, h⟩
    next p hp => cases h; exact .inr (.inl ⟨p, hr, hp, rfl⟩)
  next hr => cases h; exact .inr (.inr ⟨hr, rfl⟩)
  next => cases h

/-- The dispatcher's table by cases (R100, R108): what holds of each service and of the state itself holds of any vector's. -/
theorem State.service_cases {P : State → Prop} {s : State} (getc : P s.serviceGetc) (out : P s.serviceOut)
    (puts : P s.servicePuts) (input : P s.serviceIn) (putsp : P s.servicePutsp) (halt : P s.serviceHalt) (other : P s)
    (vect : BitVec 8) : P (s.service vect) := by
  unfold State.service
  split_ifs <;> assumption

/-- A string service from address `a`: one poll, some output, and then it is over or waits before 0xFE00 (R34, R104, R106). -/
theorem State.stringFrom_result (ends : Word → Bool) (send : Word → List Byte) (wait : Word → Pending) (a : Word)
    (s : State) :
    ∃ bs p, State.stringFrom ends send wait stringReads a s = ((s.pollAt a).conWriteAll bs).setPending p ∧
      (p = none ∨ p = some (wait kbsr)) := by
  obtain ⟨j, p, -, -, hs, hp⟩ := State.stringFrom_eq ends send wait stringReads a s le_rfl
  exact ⟨_, p, hs, hp.imp (·.2.2) (·.2.2)⟩

/-! ### Console and memory -/

/-- What every part of a step respects: output is only appended to, input is only taken from the head (R7), and memory stays
canonical (R17). -/
structure State.Progress (s t : State) : Prop where
  conOut : s.conOut <+: t.conOut
  kbdIn : t.kbdIn <:+ s.kbdIn
  wf : s.mem.wf = true → t.mem.wf = true

theorem State.Progress.of_eq {s t : State} (ho : t.conOut = s.conOut) (hi : t.kbdIn = s.kbdIn) (hm : t.mem = s.mem) :
    s.Progress t where
  conOut := ho ▸ List.prefix_refl _
  kbdIn := hi ▸ List.suffix_refl _
  wf := fun h => hm ▸ h

theorem State.Progress.trans {s t u : State} (h : s.Progress t) (h' : t.Progress u) : s.Progress u where
  conOut := h.conOut.trans h'.conOut
  kbdIn := h'.kbdIn.trans h.kbdIn
  wf := h'.wf ∘ h.wf

theorem State.progress_pollAt (s : State) (a : Word) : s.Progress (s.pollAt a) where
  conOut := by simp
  kbdIn := s.pollAt_kbdIn_suffix a
  wf := State.wf_pollAt a

theorem State.progress_memWrite (s : State) (a v : Word) : s.Progress (s.memWrite a v) where
  conOut := List.prefix_refl _
  kbdIn := List.suffix_refl _
  wf := State.wf_setCell a v

theorem State.progress_conWriteAll (s : State) (bs : List Byte) : s.Progress (s.conWriteAll bs) where
  conOut := List.prefix_append _ _
  kbdIn := List.suffix_refl _
  wf := id

theorem State.progress_fetch (s : State) : s.Progress s.fetch.2 :=
  (s.progress_pollAt s.pc).trans (.of_eq rfl rfl rfl)

theorem State.progress_loadFrom (s : State) (dr : RegIdx) (a : Word) : s.Progress (s.loadFrom dr a) :=
  (s.progress_pollAt a).trans (.of_eq rfl rfl rfl)

theorem State.progress_awaitGetc (s : State) : s.Progress s.awaitGetc := by
  cases h : s.kbdIn with
  | nil => rw [State.awaitGetc_nil h]; exact .of_eq rfl rfl rfl
  | cons c rest => rw [State.awaitGetc_cons h]; exact ⟨List.prefix_refl _, by simp [h], id⟩

theorem State.progress_awaitIn (s : State) : s.Progress s.awaitIn := by
  cases h : s.kbdIn with
  | nil => rw [State.awaitIn_nil h]; exact .of_eq rfl rfl rfl
  | cons c rest => rw [State.awaitIn_cons h]; exact ⟨List.prefix_append _ _, by simp [h], id⟩

theorem State.progress_stringFrom (ends : Word → Bool) (send : Word → List Byte) (wait : Word → Pending) (a : Word)
    (s : State) : s.Progress (State.stringFrom ends send wait stringReads a s) := by
  obtain ⟨bs, p, h, -⟩ := State.stringFrom_result ends send wait a s
  rw [h]
  exact ((s.progress_pollAt a).trans (State.progress_conWriteAll _ bs)).trans (.of_eq rfl rfl rfl)

theorem State.progress_service (s : State) (vect : BitVec 8) : s.Progress (s.service vect) :=
  State.service_cases s.progress_awaitGetc (s.progress_conWriteAll _) (State.progress_stringFrom _ _ _ _ s)
    ((s.progress_conWriteAll _).trans (State.progress_awaitIn _)) (State.progress_stringFrom _ _ _ _ s)
    ((s.progress_conWriteAll _).trans (.of_eq rfl rfl rfl)) (.of_eq rfl rfl rfl) vect

theorem State.progress_resume (s : State) : ∀ p, s.Progress (s.resume p)
  | .getc => s.progress_awaitGetc
  | .inRead => s.progress_awaitIn
  | .puts a => State.progress_stringFrom _ _ _ a s
  | .putsp a => State.progress_stringFrom _ _ _ a s

/-- An instruction either begins no service, or is a TRAP: the link write and then the service of a vector (R100). -/
theorem exec_plain_or_service {i : Instr} {s t : State} (h : exec i s = .next t) :
    (s.Progress t ∧ t.pending = s.pending) ∨ ∃ vect, t = s.link.service vect := by
  cases i with
  | br n z p off9 =>
    cases h
    split
    · exact .inl ⟨.of_eq rfl rfl rfl, rfl⟩
    · exact .inl ⟨.of_eq rfl rfl rfl, rfl⟩
  | addReg | addImm | andReg | andImm | not | lea => cases h; exact .inl ⟨.of_eq rfl rfl rfl, rfl⟩
  | jsr | jsrr | jmp | ret | nop | rti | res => cases h; exact .inl ⟨.of_eq rfl rfl rfl, rfl⟩
  | ld | ldr => cases h; exact .inl ⟨s.progress_loadFrom _ _, s.pollAt_pending _⟩
  | ldi =>
    cases h
    exact .inl ⟨(s.progress_pollAt _).trans (State.progress_loadFrom _ _ _),
      (State.pollAt_pending _ _).trans (s.pollAt_pending _)⟩
  | st | str => cases h; exact .inl ⟨s.progress_memWrite _ _, rfl⟩
  | sti =>
    cases h
    exact .inl ⟨(s.progress_pollAt _).trans (State.progress_memWrite _ _ _), s.pollAt_pending _⟩
  | trap vect => cases h; exact .inr ⟨vect, rfl⟩
  | trapGetc => cases h; exact .inr ⟨0x20, rfl⟩
  | trapOut => cases h; exact .inr ⟨0x21, rfl⟩
  | trapPuts => cases h; exact .inr ⟨0x22, rfl⟩
  | trapIn => cases h; exact .inr ⟨0x23, rfl⟩
  | trapPutsp => cases h; exact .inr ⟨0x24, rfl⟩
  | trapHalt => cases h; exact .inr ⟨0x25, rfl⟩
  | trapOther => cases h; exact .inl ⟨.of_eq rfl rfl rfl, rfl⟩

theorem exec_progress {i : Instr} {s t : State} (h : exec i s = .next t) : s.Progress t := by
  obtain ⟨hp, -⟩ | ⟨vect, rfl⟩ := exec_plain_or_service h
  · exact hp
  · exact .trans (t := s.link) (.of_eq rfl rfl rfl) (s.link.progress_service vect)

theorem step_progress {s t : State} (h : step s = .next t) : s.Progress t := by
  obtain ⟨-, -, he⟩ | ⟨p, -, -, rfl⟩ | ⟨-, rfl⟩ := step_cases h
  · exact s.progress_fetch.trans (exec_progress he)
  · exact s.progress_resume p
  · exact .of_eq rfl rfl rfl

/-! ### The invariant -/

/-- Outside a service the invariant asks for canonical memory only. -/
theorem State.inv_of_pending_none {s : State} (hm : s.mem.wf = true) (hp : s.pending = none) : s.Inv := by
  simp [State.Inv, hm, hp]

/-- From where a service may run: memory canonical, the engine RUNNING, the link written (R16, R100). -/
structure State.Linked (s : State) : Prop where
  wf : s.mem.wf = true
  running : s.runState = .running
  link : s.reg linkReg = s.pc

theorem State.linked_link {s : State} (hm : s.mem.wf = true) (hr : s.runState = .running) : s.link.Linked :=
  ⟨hm, hr, by simp⟩

theorem State.Linked.pollAt {s : State} (h : s.Linked) (a : Word) : (s.pollAt a).Linked :=
  ⟨State.wf_pollAt a h.wf, by simp [h.running], by simp [h.link]⟩

theorem State.Linked.conWriteAll {s : State} (h : s.Linked) (bs : List Byte) : (s.conWriteAll bs).Linked :=
  ⟨h.wf, h.running, h.link⟩

/-- Inside a service the invariant holds at the end and wherever the console decides how it goes on. -/
theorem State.Linked.inv_setPending {s : State} (h : s.Linked) {p : Option Pending}
    (hp : p.all Pending.atConsole = true) : (s.setPending p).Inv :=
  ⟨h.wf, fun hr => absurd h.running hr, fun _ => h.link, hp⟩

theorem State.Linked.inv_awaitGetc {s : State} (h : s.Linked) : s.awaitGetc.Inv := by
  cases hk : s.kbdIn with
  | nil => rw [State.awaitGetc_nil hk]; exact h.inv_setPending rfl
  | cons c rest => rw [State.awaitGetc_cons hk]; exact State.inv_of_pending_none h.wf rfl

theorem State.Linked.inv_awaitIn {s : State} (h : s.Linked) : s.awaitIn.Inv := by
  cases hk : s.kbdIn with
  | nil => rw [State.awaitIn_nil hk]; exact h.inv_setPending rfl
  | cons c rest => rw [State.awaitIn_cons hk]; exact State.inv_of_pending_none h.wf rfl

theorem State.Linked.inv_stringFrom {s : State} (h : s.Linked) (ends : Word → Bool) (send : Word → List Byte)
    {wait : Word → Pending} (hw : (wait kbsr).atConsole = true) (a : Word) :
    (State.stringFrom ends send wait stringReads a s).Inv := by
  obtain ⟨bs, p, hs, hp⟩ := State.stringFrom_result ends send wait a s
  rw [hs]
  refine ((h.pollAt a).conWriteAll bs).inv_setPending ?_
  obtain rfl | rfl := hp
  · rfl
  · exact hw

theorem State.Linked.inv_service {s : State} (h : s.Linked) (hp : s.pending = none) (vect : BitVec 8) :
    (s.service vect).Inv :=
  State.service_cases (P := State.Inv) h.inv_awaitGetc (State.inv_of_pending_none h.wf hp)
    (h.inv_stringFrom _ _ rfl _) (h.conWriteAll _).inv_awaitIn (h.inv_stringFrom _ _ rfl _)
    (State.inv_of_pending_none h.wf hp) (State.inv_of_pending_none h.wf hp) vect

theorem State.Linked.inv_resume {s : State} (h : s.Linked) : ∀ p, (s.resume p).Inv
  | .getc => h.inv_awaitGetc
  | .inRead => h.inv_awaitIn
  | .puts a => h.inv_stringFrom _ _ rfl a
  | .putsp a => h.inv_stringFrom _ _ rfl a

theorem exec_inv {i : Instr} {s t : State} (hm : s.mem.wf = true) (hr : s.runState = .running)
    (hp : s.pending = none) (h : exec i s = .next t) : t.Inv := by
  obtain ⟨ht, hpt⟩ | ⟨vect, rfl⟩ := exec_plain_or_service h
  · exact State.inv_of_pending_none (ht.wf hm) (hpt.trans hp)
  · exact (State.linked_link hm hr).inv_service hp vect

theorem State.Inv.step {s t : State} (hs : s.Inv) (h : step s = .next t) : t.Inv := by
  have ⟨hm, _, hlink, _⟩ := hs
  obtain ⟨hr, hp, he⟩ | ⟨p, hr, hp, rfl⟩ | ⟨-, rfl⟩ := step_cases h
  · exact exec_inv (s.progress_fetch.wf hm) ((s.pollAt_runState _).trans hr) ((s.pollAt_pending _).trans hp) he
  · have linked : s.Linked := ⟨hm, hr, hlink (by simp [hp])⟩
    exact linked.inv_resume p
  · exact hs

/-- The invariant does not speak of the console's queue, so arrivals keep it (R7). -/
theorem State.Inv.arrive {s : State} (hs : s.Inv) (bs : List Byte) : (s.arrive bs).Inv := hs

theorem State.inv_boot (images : List (List Byte)) (kbd : List Byte) : (State.boot images kbd).Inv := by
  have hm : (images.foldl Memory.load []).wf = true :=
    List.foldlRecOn (motive := fun m => m.wf = true) images Memory.load State.wf_reset
      fun _ hm b _ => Memory.wf_load b hm
  exact State.inv_of_pending_none hm rfl

end Sys2Proof.Machine
end

section
/-! PROOFS of 00_scope.md: the console's streams, and the invariant over every run. -/

namespace Sys2Proof.Proofs.Scope

open Sys2Proof Sys2Proof.Machine

/-- Settles O56: every part of a step only appends to con_out and takes from the head of kbd_in. -/
theorem consoleStreamsInOrder : Obligations.ConsoleStreamsInOrder := by
  intro s t h
  have hp := step_progress h
  exact ⟨hp.conOut, hp.kbdIn⟩

/-- Settles O59, by induction on how the state is reached: booted, after an arrival, after a step. -/
theorem invariantWhereverReachable : Obligations.InvariantWhereverReachable := by
  intro s hs
  induction hs with
  | boot images kbd => exact State.inv_boot images kbd
  | arrive s bs _ ih => exact ih.arrive bs
  | step s t _ h ih => exact ih.step h

end Sys2Proof.Proofs.Scope
end

section
/-! SUPPORT. What a part of a step does to the registers, to cond and to the run state, said once for each instruction and
each service. -/

namespace Sys2Proof.Machine

/-! ### Registers and flags -/

/-- The flag of a value in R15's own words: zero, or bit 15. -/
theorem condOf_eq (v : Word) : condOf v = if v = 0 then .zero else if v.getLsbD 15 then .neg else .pos := by
  simp [condOf, BitVec.msb_eq_getLsbD_last]

@[simp] theorem State.stringFrom_regs (ends : Word → Bool) (send : Word → List Byte) (wait : Word → Pending)
    (n : Nat) (a : Word) (s : State) : (State.stringFrom ends send wait n a s).regs = s.regs :=
  (State.stringFrom_kept ends send wait n a s).1

@[simp] theorem State.stringFrom_cond (ends : Word → Bool) (send : Word → List Byte) (wait : Word → Pending)
    (n : Nat) (a : Word) (s : State) : (State.stringFrom ends send wait n a s).cond = s.cond :=
  (State.stringFrom_kept ends send wait n a s).2.2.1

@[simp] theorem State.stringFrom_runState (ends : Word → Bool) (send : Word → List Byte) (wait : Word → Pending)
    (n : Nat) (a : Word) (s : State) : (State.stringFrom ends send wait n a s).runState = s.runState :=
  (State.stringFrom_kept ends send wait n a s).2.2.2

/-- From `s` to `t` no register is written but those of `ws`. If `d` names no register cond is kept, and else it is the flag
of that register's value once no service is in progress (R15). -/
structure State.Writes (ws : List RegIdx) (d : Option RegIdx) (s t : State) : Prop where
  regs : State.RegsKept ws s t
  untested : d = none → t.cond = s.cond
  tested : ∀ r, d = some r → t.pending = none → t.cond = condOf (t.reg r)

theorem State.writes_nothing {s t : State} (hr : t.regs = s.regs) (hc : t.cond = s.cond) : State.Writes [] none s t where
  regs := fun r _ => State.reg_congr hr r
  untested := fun _ => hc
  tested := nofun

theorem State.writes_writeResult {s m : State} {dr : RegIdx} {v : Word} (hr : m.regs = s.regs) :
    State.Writes [dr] (some dr) s (m.writeResult dr v) where
  regs := fun r hd => by
    have hne : r ≠ dr := List.ne_of_not_mem_cons hd
    simp [hne, State.reg_congr hr]
  untested := nofun
  tested := fun r hd _ => by cases hd; simp

/-- The link write before an operation adds x[7] to what it writes (R93, R94, R100). -/
theorem State.Writes.of_link {ws : List RegIdx} {d : Option RegIdx} {s t : State} (h : State.Writes ws d s.link t) :
    State.Writes (linkReg :: ws) d s t where
  regs := fun r hr => by
    obtain ⟨hne, hws⟩ := not_or.mp (List.mem_cons.not.mp hr)
    rw [h.regs r hws, State.reg_link, if_neg hne]
  untested := h.untested
  tested := h.tested

/-- A hold of GETC writes nothing, and its end writes x[0] with its flags (R101, R102). -/
theorem State.writes_awaitGetc (s : State) : State.Writes [serviceReg] (some serviceReg) s s.awaitGetc := by
  cases hk : s.kbdIn with
  | nil => rw [State.awaitGetc_nil hk]; exact ⟨fun _ _ => rfl, nofun, fun _ _ => nofun⟩
  | cons c rest => rw [State.awaitGetc_cons hk]; exact State.writes_writeResult rfl

/-- A hold of IN writes nothing, and its end writes x[0] with its flags (R105, R102). -/
theorem State.writes_awaitIn (s : State) : State.Writes [serviceReg] (some serviceReg) s s.awaitIn := by
  cases hk : s.kbdIn with
  | nil => rw [State.awaitIn_nil hk]; exact ⟨fun _ _ => rfl, nofun, fun _ _ => nofun⟩
  | cons c rest => rw [State.awaitIn_cons hk]; exact State.writes_writeResult rfl

/-- IN's prompt before its `ConRead()` writes no register and tests none (R105). -/
theorem State.writes_serviceIn (s : State) : State.Writes [serviceReg] (some serviceReg) s s.serviceIn :=
  ⟨(State.writes_awaitIn _).regs, nofun, (State.writes_awaitIn _).tested⟩

theorem State.writes_stringFrom (ends : Word → Bool) (send : Word → List Byte) (wait : Word → Pending) (n : Nat)
    (a : Word) (s : State) : State.Writes [] none s (State.stringFrom ends send wait n a s) :=
  State.writes_nothing (by simp) (by simp)

/-- The services other than GETC and IN write no register and set no flag (R103, R104, R106 to R108). -/
theorem State.writes_service {vect : BitVec 8} (hv : ¬(vect = 0x20 ∨ vect = 0x23)) (s : State) :
    State.Writes [] none s (s.service vect) := by
  obtain ⟨hgetc, hin⟩ := not_or.mp hv
  unfold State.service
  rw [if_neg hgetc]
  split_ifs
  · exact State.writes_nothing rfl rfl
  · exact State.writes_stringFrom _ _ _ _ _ s
  · exact State.writes_stringFrom _ _ _ _ _ s
  · exact State.writes_nothing rfl rfl
  · exact State.writes_nothing rfl rfl

/-- TRAP on every vector (R100): the link, and for GETC and IN x[0] with its flags. -/
theorem exec_trap_writes {vect : BitVec 8} {s t : State} (h : exec (.trap vect) s = .next t) :
    State.Writes (Instr.trap vect).regsWritten (Instr.trap vect).flagTested s t := by
  cases h
  by_cases hv : vect = 0x20 ∨ vect = 0x23
  · obtain rfl | rfl := hv
    · exact s.link.writes_awaitGetc.of_link
    · exact s.link.writes_serviceIn.of_link
  · simp only [Instr.regsWritten, Instr.flagTested, if_neg hv]
    exact (State.writes_service hv s.link).of_link

/-- What an instruction writes and tests (the table after R11, R15). -/
theorem exec_writes {i : Instr} {s t : State} (h : exec i s = .next t) : State.Writes i.regsWritten i.flagTested s t := by
  cases i with
  | br n z p off9 =>
    cases h
    split
    · exact State.writes_nothing rfl rfl
    · exact State.writes_nothing rfl rfl
  | addReg | addImm | andReg | andImm | not | lea => cases h; exact State.writes_writeResult rfl
  | ld | ldr => cases h; exact State.writes_writeResult (State.pollAt_regs _ _)
  | ldi => cases h; exact State.writes_writeResult ((State.pollAt_regs _ _).trans (State.pollAt_regs _ _))
  | st | str | jmp | ret | nop | rti | res => cases h; exact State.writes_nothing rfl rfl
  | sti => cases h; exact State.writes_nothing (State.pollAt_regs _ _) (State.pollAt_cond _ _)
  | jsr | jsrr | trapOther => cases h; exact State.Writes.of_link (State.writes_nothing rfl rfl)
  | trap => exact exec_trap_writes h
  | trapGetc => exact exec_trap_writes (vect := 0x20) h
  | trapOut => exact exec_trap_writes (vect := 0x21) h
  | trapPuts => exact exec_trap_writes (vect := 0x22) h
  | trapIn => exact exec_trap_writes (vect := 0x23) h
  | trapPutsp => exact exec_trap_writes (vect := 0x24) h
  | trapHalt => exact exec_trap_writes (vect := 0x25) h

/-- What the next part of a service writes and tests (R101, R104 to R106). -/
theorem State.resume_writes (s : State) : ∀ p, State.Writes p.regsWritten p.flagTested s (s.resume p)
  | .getc => s.writes_awaitGetc
  | .inRead => s.writes_awaitIn
  | .puts a => State.writes_stringFrom _ _ _ _ a s
  | .putsp a => State.writes_stringFrom _ _ _ _ a s

/-- A service that still waits has not set the flags (R102, R109). -/
theorem State.resume_cond_of_pending {s : State} {p : Pending} (h : (s.resume p).pending ≠ none) :
    (s.resume p).cond = s.cond := by
  cases p with
  | getc =>
    cases hk : s.kbdIn with
    | nil => exact (congrArg State.cond (State.awaitGetc_nil hk)).trans rfl
    | cons c rest => exact absurd (congrArg State.pending (State.awaitGetc_cons hk)) h
  | inRead =>
    cases hk : s.kbdIn with
    | nil => exact (congrArg State.cond (State.awaitIn_nil hk)).trans rfl
    | cons c rest => exact absurd (congrArg State.pending (State.awaitIn_cons hk)) h
  | puts a => exact State.stringFrom_cond _ _ _ _ a s
  | putsp a => exact State.stringFrom_cond _ _ _ _ a s

/-- A step of a RUNNING engine inside a service is the next part of that service (R102, R109). -/
theorem step_of_pending {s t : State} {p : Pending} (hr : s.runState = .running) (hp : s.pending = some p)
    (h : step s = .next t) : t = s.resume p := by
  simpa [step, hr, hp, eq_comm] using h

/-! ### The run state -/

@[simp] theorem State.awaitGetc_runState (s : State) : s.awaitGetc.runState = s.runState := by
  cases hk : s.kbdIn with
  | nil => rw [State.awaitGetc_nil hk]; rfl
  | cons c rest => rw [State.awaitGetc_cons hk]; rfl

@[simp] theorem State.awaitIn_runState (s : State) : s.awaitIn.runState = s.runState := by
  cases hk : s.kbdIn with
  | nil => rw [State.awaitIn_nil hk]; rfl
  | cons c rest => rw [State.awaitIn_cons hk]; rfl

/-- Of the services only HALT changes the run state (R107). -/
theorem State.service_runState (s : State) (vect : BitVec 8) :
    (s.service vect).runState = if vect = 0x25 then .halted else s.runState := by
  by_cases hv : vect = 0x25
  · subst hv; rfl
  · rw [if_neg hv]
    unfold State.service
    rw [if_neg hv]
    split_ifs
    · exact s.awaitGetc_runState
    · rfl
    · exact State.stringFrom_runState _ _ _ _ _ s
    · exact State.awaitIn_runState _
    · exact State.stringFrom_runState _ _ _ _ _ s
    · rfl

/-- No part of a service in progress changes the run state (R102, R109). -/
theorem State.resume_runState (s : State) : ∀ p, (s.resume p).runState = s.runState
  | .getc => s.awaitGetc_runState
  | .inRead => s.awaitIn_runState
  | .puts a => State.stringFrom_runState _ _ _ _ a s
  | .putsp a => State.stringFrom_runState _ _ _ _ a s

/-! ### The branch test -/

/-- BR's test on the three condition bits of a word is the AND with the one-hot flag (R14, R90, D3). -/
theorem Cond.taken_iff_bits_and (c : Cond) (f : BitVec 3) :
    c.taken (f.getLsbD 2) (f.getLsbD 1) (f.getLsbD 0) = true ↔ c.bits &&& f ≠ 0 := by
  revert f
  cases c with
  | pos => decide
  | zero => decide
  | neg => decide

/-- `sext_N` reads the low N bits of its argument and no others (R53). -/
theorem sextField_extractLsb' {n : Nat} (hn : n ≤ 16) (w : Word) : sextField (w.extractLsb' 0 n) = sext n w := by
  have hpow : 2 ^ n ≤ 65536 := Nat.pow_le_pow_right (by decide) hn
  have hmask : (2 ^ n - 1) % 65536 = 2 ^ n - 1 := Nat.mod_eq_of_lt (by omega)
  have hfield : w.toNat % 2 ^ n % 65536 = w.toNat % 2 ^ n :=
    Nat.mod_eq_of_lt ((Nat.mod_lt _ (Nat.two_pow_pos n)).trans_le hpow)
  have hlow : (w.extractLsb' 0 n).setWidth 16 &&& BitVec.ofNat 16 (2 ^ n - 1) = w &&& BitVec.ofNat 16 (2 ^ n - 1) := by
    apply BitVec.eq_of_toNat_eq
    simp [hmask, hfield, Nat.and_two_pow_sub_one_eq_mod]
  simp only [sextField, sext, hlow]

/-- The mask 0xF000 keeps the opcode (R50). -/
theorem opcode_zero_of_mask {w : Word} (h : w &&& 0xF000 = 0) : w.extractLsb' 12 4 = 0x0#4 := by
  have hbits : (w &&& 0xF000).extractLsb' 12 4 = 0x0#4 := by rw [h]; rfl
  rw [BitVec.extractLsb'_and] at hbits
  exact (BitVec.and_allOnes (x := w.extractLsb' 12 4)).symm.trans hbits

/-- The words of opcode 0 (R51, R54): NOP is the zero word, BR is every other one. -/
theorem decode_of_opcode_zero {w : Word} (h : w &&& 0xF000 = 0) :
    decode w = if w = 0 then .nop else .br (w.getLsbD 11) (w.getLsbD 10) (w.getLsbD 9) (w.extractLsb' 0 9) := by
  unfold decode
  rw [opcode_zero_of_mask h]
  rfl

end Sys2Proof.Machine
end

section
/-! PROOFS of 10_state.md: reset, the invariant at one step, and who changes registers, cond and the run state. -/

namespace Sys2Proof.Proofs.StateTuple

open Sys2Proof Sys2Proof.Machine

/-- Settles O57, by the forms a step can take: an instruction after its fetch, the next part of a service, a HALTED engine. -/
theorem stepKeepsInvariant : Obligations.StepKeepsInvariant :=
  fun _ _ hs h => hs.step h

/-- Settles O17: an instruction tests the register its row names or none, and a service that still waits has tested none. -/
theorem condKeptByOthers : Obligations.CondKeptByOthers := by
  refine ⟨fun i s t hi h => (exec_writes h).untested hi, fun p s t hr hp h hkept => ?_⟩
  obtain rfl := step_of_pending hr hp h
  obtain hd | hwaits := hkept
  · exact (s.resume_writes p).untested hd
  · exact State.resume_cond_of_pending hwaits

/-- Settles O18: cond is set by the value of the register tested, at once or when the hold ends. -/
theorem condMatchesWrittenRegister : Obligations.CondMatchesWrittenRegister := by
  refine ⟨fun i s t d hd h hdone => ?_, fun p s t d hr hp hd h hdone => ?_⟩
  · rw [← condOf_eq]
    exact (exec_writes h).tested d hd hdone
  · obtain rfl := step_of_pending hr hp h
    rw [← condOf_eq]
    exact (s.resume_writes p).tested d hd hdone

/-- Settles O33: a word of opcode 0 is NOP, whose mask is empty, or BR with the mask's three bits. -/
theorem brTestIsMask : Obligations.BrTestIsMask := by
  intro w s hw
  rw [decode_of_opcode_zero hw]
  by_cases h0 : w = 0
  · subst h0
    simp [exec, execNop, State.setPc]
  · have htaken : s.cond.taken (w.getLsbD 11) (w.getLsbD 10) (w.getLsbD 9) = true ↔
        s.cond.bits &&& w.extractLsb' 9 3 ≠ 0 := by
      simpa using Cond.taken_iff_bits_and s.cond (w.extractLsb' 9 3)
    rw [if_neg h0]
    simp only [exec, execBr, State.pcRel9, sextField_extractLsb' (show 9 ≤ 16 by decide), htaken]
    split
    · rfl
    · rfl

/-- Settles O51, instruction by instruction; HALT by the dispatcher's table. -/
theorem runStateTransitions : Obligations.RunStateTransitions := by
  refine ⟨fun i s t h => ?_, fun p s t hr hp h => ?_⟩
  · cases i with
    | br => cases h; split <;> rfl
    | addReg | addImm | andReg | andImm | not | lea => cases h; rfl
    | jsr | jsrr | jmp | ret | nop | rti | res | st | str | trapOther => cases h; rfl
    | ld | ldr | sti => cases h; exact State.pollAt_runState _ _
    | ldi => cases h; exact (State.pollAt_runState _ _).trans (State.pollAt_runState _ _)
    | trap vect => cases h; exact s.link.service_runState vect
    | trapGetc => cases h; exact s.link.service_runState 0x20
    | trapOut => cases h; exact s.link.service_runState 0x21
    | trapPuts => cases h; exact s.link.service_runState 0x22
    | trapIn => cases h; exact s.link.service_runState 0x23
    | trapPutsp => cases h; exact s.link.service_runState 0x24
    | trapHalt => cases h; exact s.link.service_runState 0x25
  · obtain rfl := step_of_pending hr hp h
    exact (s.resume_runState p).trans hr

/-- Settles O53: the registers an instruction or the next part of a service may write. -/
theorem registersChangedOnlyAsListed : Obligations.RegistersChangedOnlyAsListed := by
  refine ⟨fun i s t h => (exec_writes h).regs, fun p s t hr hp h => ?_⟩
  obtain rfl := step_of_pending hr hp h
  exact (s.resume_writes p).regs

/-- Settles O8: each field of the boot state is the table's, and with no image memory lists no cell. -/
theorem resetValues : Obligations.ResetValues := by
  refine ⟨fun images kbd => ⟨fun r => ?_, rfl, rfl, rfl, fun _ => rfl, rfl, rfl⟩, rfl, fun _ => rfl⟩
  simp [State.reg, State.boot, State.reset, resetReg]

/-- Settles O16, by the sign and zero-ness of the value. -/
theorem setFlagsBySign : Obligations.SetFlagsBySign := by
  intro s v
  simp only [State.setFlags, condOf_eq]
  refine ⟨fun h0 => ?_, fun h0 h15 => ?_, fun h0 h15 => ?_⟩
  · rw [if_pos h0]
  · rw [if_neg h0, if_pos h15]
  · rw [if_neg h0, h15]; rfl

/-- Settles O50: `step` looks at the run state before anything else. -/
theorem terminalStatesStay : Obligations.TerminalStatesStay := by
  refine fun s => ⟨fun h => ?_, fun c h => ?_⟩
  · simp [step, h]
  · simp [step, h]

/-- Settles O58: reset is the boot with no image and no input. -/
theorem invariantAtReset : Obligations.InvariantAtReset :=
  State.inv_boot [] []

end Sys2Proof.Proofs.StateTuple
end

section
/-! SUPPORT. What a read leaves of memory and console, and the string services and the other parts of a step as reads: the
terms of Safety.lean tied to the operations, said once. -/

namespace Sys2Proof.Machine

/-! ### One read -/

/-- A read of 0xFE00 is a poll (R31). -/
theorem State.pollAt_kbsr (s : State) : s.pollAt kbsr = s.keyboardPoll := if_pos rfl

/-- The cells after a poll with input pending (R32). -/
theorem State.cell_pollAt_kbsr_cons {s : State} {c : Byte} {rest : List Byte} (h : s.kbdIn = c :: rest) (b : Word) :
    (s.pollAt kbsr).cell b = if b = kbsr then kbsrReady else if b = kbdr then zextByte c else s.cell b := by
  rw [s.pollAt_kbsr, State.keyboardPoll_cons h, State.cell_setCell, State.cell_setCell]
  by_cases hb : b = kbsr
  · subst hb; rfl
  · simp only [if_neg hb]; rfl

/-- The cells after a poll with none pending (R32). -/
theorem State.cell_pollAt_kbsr_nil {s : State} (h : s.kbdIn = []) (b : Word) :
    (s.pollAt kbsr).cell b = if b = kbsr then kbsrIdle else s.cell b := by
  rw [s.pollAt_kbsr, State.keyboardPoll_nil h, State.cell_setCell]

/-- A poll takes the head of the queue (R32, D7). -/
theorem State.kbdIn_pollAt_kbsr (s : State) : (s.pollAt kbsr).kbdIn = s.kbdIn.tail := by
  rw [s.pollAt_kbsr]
  cases h : s.kbdIn with
  | nil => rw [State.keyboardPoll_nil h]; exact h
  | cons c rest => rw [State.keyboardPoll_cons h]; rfl

/-- The word a read of 0xFE00 gives (R32). -/
theorem State.cell_kbsr_pollAt (s : State) :
    (s.pollAt kbsr).cell kbsr = if s.kbdIn = [] then kbsrIdle else kbsrReady := by
  cases h : s.kbdIn with
  | nil => rw [State.cell_pollAt_kbsr_nil h]; rfl
  | cons c rest => rw [State.cell_pollAt_kbsr_cons h]; rfl

/-- `MemRead` in the words of R31 and R32. -/
theorem State.readEffect_pollAt (s : State) (a : Word) : State.ReadEffect a ((s.pollAt a).cell a) s (s.pollAt a) := by
  refine ⟨s.pollAt_conOut a, ?_⟩
  by_cases ha : a = 0xFE00
  · subst ha
    have hkbd := s.kbdIn_pollAt_kbsr
    rw [if_pos rfl]
    cases h : s.kbdIn with
    | nil => exact ⟨State.cell_pollAt_kbsr_nil h _, hkbd.trans (by rw [h]; rfl), State.cell_pollAt_kbsr_nil h⟩
    | cons c rest => exact ⟨State.cell_pollAt_kbsr_cons h _, hkbd.trans (by rw [h]; rfl), State.cell_pollAt_kbsr_cons h⟩
  · rw [if_neg ha, State.pollAt_of_ne ha]
    exact ⟨rfl, rfl, fun _ => rfl⟩

/-! ### The fetch -/

/-- A step of a RUNNING engine outside a service is the instruction fetched (R148). -/
theorem step_of_running {s : State} (hr : s.runState = .running) (hp : s.pending = none) :
    step s = exec (decode s.fetch.1) s.fetch.2 := by
  simp only [step, hr, hp]

/-- A step of a RUNNING engine inside a service answers the next part of it (R102, R109). -/
theorem step_of_running_pending {s : State} {p : Pending} (hr : s.runState = .running) (hp : s.pending = some p) :
    step s = .next (s.resume p) := by
  simp only [step, hr, hp]

/-- A fetch from elsewhere than 0xFE00 changes pc alone (R31, R148). -/
theorem State.fetch_of_ne {s : State} (h : s.pc ≠ kbsr) : s.fetch = (s.cell s.pc, s.setPc (s.pc + 1)) := by
  simp [State.fetch, State.pollAt_of_ne h]

/-- A fetch from 0xFE00 polls and gives the polled word (R34). -/
theorem State.fetch_of_eq {s : State} (h : s.pc = kbsr) :
    s.fetch = (if s.kbdIn = [] then kbsrIdle else kbsrReady, (s.pollAt kbsr).setPc 0xFE01) := by
  simp only [State.fetch, State.memRead_fst, State.memRead_snd, h, State.cell_kbsr_pollAt]
  rfl

/-! ### The string services -/

/-- A string service from `a` makes the run of the string from there (R34, R104, R106). `p` is its end test in the spec's
words. -/
theorem State.stringRun_stringFrom {ends : Word → Bool} {p : Word → Prop} (hp : ∀ w, ends w = true ↔ p w)
    (send : Word → List Byte) (wait : Word → Pending) (a : Word) (s : State) :
    State.StringRun p send (wait kbsr) a s (State.stringFrom ends send wait stringReads a s) := by
  obtain ⟨n, q, hwords, hne, hs, hq⟩ := State.stringFrom_eq ends send wait stringReads a s le_rfl
  rw [hs]
  refine ⟨s.pollAt a, n, s.readEffect_pollAt a, fun k hk => ?_, hne, ?_, rfl, fun _ => rfl, ?_⟩
  · simp [← hp, hwords k hk]
  · simp
  · exact hq.imp (fun ⟨hstop, he, hnone⟩ => ⟨hstop, (hp _).mp he, hnone⟩) id

/-- PUTS from `a` (R104). -/
theorem State.putsRun_putsFrom (a : Word) (s : State) : State.PutsRun a s (State.putsFrom stringReads a s) :=
  State.stringRun_stringFrom (by simp [putsEnds]) plainBytes .puts a s

/-- PUTSP from `a` (R106). -/
theorem State.putspRun_putspFrom (a : Word) (s : State) : State.PutspRun a s (State.putspFrom stringReads a s) :=
  State.stringRun_stringFrom (by simp [putspEnds]) packedBytes .putsp a s

/-- A string whose length is known: its words are sent, and then the terminator ends the service or a later 0xFE00 suspends
it (R104, R106). -/
theorem State.stringFrom_of_length {ends : Word → Bool} {a : Word} {s : State} {n : Nat} (send : Word → List Byte)
    (wait : Word → Pending) (hwords : ∀ k, k < n → ends ((s.pollAt a).cell (a + BitVec.ofNat 16 k)) = false)
    (hne : ∀ k, k < n → k ≠ 0 → a + BitVec.ofNat 16 k ≠ kbsr)
    (hend : ¬ (n ≠ 0 ∧ a + BitVec.ofNat 16 n = kbsr) → ends ((s.pollAt a).cell (a + BitVec.ofNat 16 n)) = true) :
    State.stringFrom ends send wait stringReads a s =
      ((s.pollAt a).conWriteAll
        ((List.range n).flatMap fun k => send ((s.pollAt a).cell (a + BitVec.ofNat 16 k)))).setPending
          (if n ≠ 0 ∧ a + BitVec.ofNat 16 n = kbsr then some (wait kbsr) else none) := by
  obtain ⟨j, p, hj, hjne, hs, hp⟩ := State.stringFrom_eq ends send wait stringReads a s le_rfl
  obtain hlt | rfl | hlt := Nat.lt_trichotomy j n
  · obtain ⟨-, he, -⟩ | ⟨h0, hk, -⟩ := hp
    · exact absurd he (by simp [hwords j hlt])
    · exact absurd hk (hne j hlt h0)
  · rw [hs]
    congr 1
    obtain ⟨hstop, -, rfl⟩ | ⟨h0, hk, rfl⟩ := hp
    · exact (if_neg fun h => hstop.elim h.1 fun hne => hne h.2).symm
    · exact (if_pos ⟨h0, hk⟩).symm
  · by_cases hk : n ≠ 0 ∧ a + BitVec.ofNat 16 n = kbsr
    · exact absurd hk.2 (hjne n hlt hk.1)
    · exact absurd (hend hk) (by simp [hj n hlt])

/-- A string service at 0xFE00 whose polled word ends it leaves the poll and nothing else (R34). -/
theorem State.stringFrom_kbsr_of_ends {ends : Word → Bool} {s : State} (send : Word → List Byte) (wait : Word → Pending)
    (h : ends ((s.pollAt kbsr).cell kbsr) = true) :
    State.stringFrom ends send wait stringReads kbsr s = (s.pollAt kbsr).setPending none :=
  (State.stringFrom_succ ends send wait 65535 kbsr s).trans (if_pos h)

/-- PUTSP before 0xFE00 ends there: both polled words have a zero low byte (R34, R106). -/
theorem State.resume_putsp_kbsr (s : State) : s.resume (.putsp kbsr) = (s.pollAt kbsr).setPending none := by
  refine State.stringFrom_kbsr_of_ends _ _ ?_
  rw [s.cell_kbsr_pollAt]
  split
  · decide
  · decide

/-- PUTS before 0xFE00 with no input pending ends there (R34, R104). -/
theorem State.resume_puts_kbsr_nil {s : State} (h : s.kbdIn = []) :
    s.resume (.puts kbsr) = (s.pollAt kbsr).setPending none := by
  refine State.stringFrom_kbsr_of_ends _ _ ?_
  rw [s.cell_kbsr_pollAt, if_pos h]
  decide

/-- PUTS before 0xFE00 with input pending: the byte of 0x8000, and then the `n` words from 0xFE01 up to the terminator, which
stand in memory as the poll leaves it (R34, R104; D9, D10). -/
theorem State.resume_puts_kbsr_cons {s : State} {c : Byte} {rest : List Byte} {n : Nat} (h : s.kbdIn = c :: rest)
    (hne : ∀ k, k ≤ n → 0xFE01 + BitVec.ofNat 16 k ≠ kbsr)
    (hwords : ∀ k, k < n → (s.pollAt kbsr).cell (0xFE01 + BitVec.ofNat 16 k) ≠ 0)
    (hend : (s.pollAt kbsr).cell (0xFE01 + BitVec.ofNat 16 n) = 0) :
    s.resume (.puts kbsr) =
      ((s.pollAt kbsr).conWriteAll (charByte 0x8000 ::
        (List.range n).map fun k => charByte ((s.pollAt kbsr).cell (0xFE01 + BitVec.ofNat 16 k)))).setPending none := by
  have hword0 : (s.pollAt kbsr).cell kbsr = 0x8000 := State.cell_pollAt_kbsr_cons h kbsr
  have hnext (k : Nat) : kbsr + BitVec.ofNat 16 (k + 1) = 0xFE01 + BitVec.ofNat 16 k := (add_one_add_ofNat kbsr k).symm
  have hgoes (k : Nat) (hk : k < n + 1) : putsEnds ((s.pollAt kbsr).cell (kbsr + BitVec.ofNat 16 k)) = false := by
    cases k with
    | zero => simp [hword0, putsEnds]
    | succ k => simpa [hnext, putsEnds] using hwords k (by omega)
  have hlater (k : Nat) (hk : k < n + 1) (h0 : k ≠ 0) : kbsr + BitVec.ofNat 16 k ≠ kbsr := by
    cases k with
    | zero => exact absurd rfl h0
    | succ k => exact hnext k ▸ hne k (by omega)
  have hstop : ¬ (n + 1 ≠ 0 ∧ kbsr + BitVec.ofNat 16 (n + 1) = kbsr) := fun h => hne n le_rfl (hnext n ▸ h.2)
  have hrun := State.stringFrom_of_length plainBytes .puts hgoes hlater fun _ => by rw [hnext, hend]; rfl
  rw [flatMap_words_succ, if_neg hstop, hword0] at hrun
  simp only [hnext] at hrun
  rw [List.map_eq_flatMap]
  exact hrun

@[simp] theorem State.stringFrom_pc (ends : Word → Bool) (send : Word → List Byte) (wait : Word → Pending)
    (n : Nat) (a : Word) (s : State) : (State.stringFrom ends send wait n a s).pc = s.pc :=
  (State.stringFrom_kept ends send wait n a s).2.1

/-- A string service changes no cell but KBSR and KBDR (R34). -/
theorem State.cell_stringFrom (ends : Word → Bool) (send : Word → List Byte) (wait : Word → Pending) (a : Word)
    (s : State) {b : Word} (h1 : b ≠ kbsr) (h2 : b ≠ kbdr) :
    (State.stringFrom ends send wait stringReads a s).cell b = s.cell b := by
  obtain ⟨bs, p, hs, -⟩ := State.stringFrom_result ends send wait a s
  rw [hs]
  exact State.cell_pollAt h1 h2

/-- What the loop of a string service leaves alone between two steps (R104, R106, R109). -/
theorem State.stringFrom_frame {ends : Word → Bool} {send : Word → List Byte} {wait : Word → Pending} {a : Word}
    {s t : State} (ht : t = State.stringFrom ends send wait stringReads a s) :
    State.RegsKept [] s t ∧ t.pc = s.pc ∧ t.cond = s.cond ∧ t.runState = s.runState := by
  subst ht
  exact ⟨(State.writes_stringFrom _ _ _ _ _ s).regs, by simp, by simp, by simp⟩

/-- What PUTS and PUTSP leave alone, with the link write before them (R100, R104, R106). -/
theorem State.stringFrom_link_frame {ends : Word → Bool} {send : Word → List Byte} {wait : Word → Pending} {a : Word}
    {s t : State} (ht : t = State.stringFrom ends send wait stringReads a s.link) :
    t.reg 7 = s.pc ∧ State.RegsKept [7] s t ∧ t.cond = s.cond ∧ t.pc = s.pc ∧ t.runState = s.runState ∧
      ∀ b, b ≠ 0xFE00 → b ≠ 0xFE02 → t.cell b = s.cell b := by
  subst ht
  have hw := State.writes_stringFrom ends send wait stringReads a s.link
  refine ⟨?_, hw.of_link.regs, by simp, by simp, by simp, fun b h1 h2 => State.cell_stringFrom _ _ _ a s.link h1 h2⟩
  exact (hw.regs linkReg (by simp)).trans (by simp)

/-- The link write leaves x[0], the service register (R100). -/
theorem State.reg_link_serviceReg (s : State) : s.link.reg serviceReg = s.reg 0 :=
  (s.reg_link serviceReg).trans (if_neg (by decide))

/-- PUTS runs the string from x[0] (R104); the link write is nothing the run speaks of. -/
theorem State.putsRun_servicePuts (s : State) : State.PutsRun (s.reg 0) s s.link.servicePuts := by
  have h : State.PutsRun (s.link.reg serviceReg) s s.link.servicePuts := State.putsRun_putsFrom _ s.link
  rwa [s.reg_link_serviceReg] at h

/-- PUTSP runs the string from x[0] (R106); the link write is nothing the run speaks of. -/
theorem State.putspRun_servicePutsp (s : State) : State.PutspRun (s.reg 0) s s.link.servicePutsp := by
  have h : State.PutspRun (s.link.reg serviceReg) s s.link.servicePutsp := State.putspRun_putspFrom _ s.link
  rwa [s.reg_link_serviceReg] at h

/-! ### Memory where nothing is stored -/

/-- Every cell kept, where no read polls. -/
theorem State.CellsKept.cellsPolled {s t : State} (h : State.CellsKept s t) : State.CellsPolled false s t := h

/-- After one read memory is as that read leaves it (R31). -/
theorem State.cellsPolled_of_pollAt {s t : State} {a : Word} (h : State.CellsKept (s.pollAt a) t) :
    State.CellsPolled (a == 0xFE00) s t := by
  by_cases ha : a = 0xFE00
  · subst ha
    exact ⟨s.pollAt kbsr, s.readEffect_pollAt kbsr, h⟩
  · rw [State.pollAt_of_ne ha] at h
    rwa [beq_false_of_ne ha]

/-- Of LDI's two reads at most one polls: the polled word is no pointer to 0xFE00 (R32, R81). -/
theorem State.cellsPolled_of_pollAt_pollAt {s t : State} {a : Word}
    (h : State.CellsKept ((s.pollAt a).pollAt ((s.pollAt a).cell a)) t) :
    State.CellsPolled (a == 0xFE00 || s.cell a == 0xFE00) s t := by
  by_cases ha : a = kbsr
  · subst ha
    have hword : (s.pollAt kbsr).cell kbsr ≠ kbsr := by
      rw [State.cell_kbsr_pollAt]
      split
      · decide
      · decide
    rw [State.pollAt_of_ne hword] at h
    exact State.cellsPolled_of_pollAt h
  · rw [State.pollAt_of_ne ha] at h
    rw [show (a == 0xFE00) = false from beq_false_of_ne ha, Bool.false_or]
    exact State.cellsPolled_of_pollAt h

/-- A string service polls in its first read of a step or not at all in that step (R34; log entry 11). -/
theorem State.cellsPolled_stringFrom (ends : Word → Bool) (send : Word → List Byte) (wait : Word → Pending) (a : Word)
    (s : State) : State.CellsPolled (a == 0xFE00) s (State.stringFrom ends send wait stringReads a s) := by
  obtain ⟨bs, p, hs, -⟩ := State.stringFrom_result ends send wait a s
  rw [hs]
  exact State.cellsPolled_of_pollAt fun _ => rfl

/-- GETC takes its character from the console, not through memory (R101). -/
theorem State.cellsKept_awaitGetc (s : State) : State.CellsKept s s.awaitGetc := by
  cases hk : s.kbdIn with
  | nil => rw [State.awaitGetc_nil hk]; exact fun _ => rfl
  | cons c rest => rw [State.awaitGetc_cons hk]; exact fun _ => rfl

/-- IN takes its character from the console, not through memory (R105). -/
theorem State.cellsKept_awaitIn (s : State) : State.CellsKept s s.awaitIn := by
  cases hk : s.kbdIn with
  | nil => rw [State.awaitIn_nil hk]; exact fun _ => rfl
  | cons c rest => rw [State.awaitIn_cons hk]; exact fun _ => rfl

/-- Of the services PUTS and PUTSP read memory, from x[0] on (R100 to R108). -/
theorem State.cellsPolled_service (s : State) (vect : BitVec 8) :
    State.CellsPolled ((vect == 0x22 || vect == 0x24) && s.reg serviceReg == 0xFE00) s (s.service vect) := by
  by_cases hputs : vect = 0x22
  · subst hputs; exact State.cellsPolled_stringFrom _ _ _ _ s
  by_cases hputsp : vect = 0x24
  · subst hputsp; exact State.cellsPolled_stringFrom _ _ _ _ s
  rw [beq_false_of_ne hputs, beq_false_of_ne hputsp]
  refine State.CellsKept.cellsPolled ?_
  unfold State.service
  rw [if_neg hputs, if_neg hputsp]
  split_ifs
  · exact s.cellsKept_awaitGetc
  · exact fun _ => rfl
  · exact (s.conWriteAll _).cellsKept_awaitIn
  · exact fun _ => rfl
  · exact fun _ => rfl

/-- TRAP on every vector: the link write is no memory access (R100). -/
theorem exec_trap_cellsPolled {vect : BitVec 8} {s t : State} (h : exec (.trap vect) s = .next t) :
    State.CellsPolled ((Instr.trap vect).readsKbsr s) s t := by
  cases h
  have hp := s.link.cellsPolled_service vect
  rw [State.reg_link_serviceReg] at hp
  exact hp

/-- An instruction that does not store leaves memory as its one read of 0xFE00 does, if it makes one (R42). -/
theorem exec_cellsPolled {i : Instr} {s t : State} (hi : i.stores = false) (h : exec i s = .next t) :
    State.CellsPolled (i.readsKbsr s) s t := by
  cases i with
  | br n z p off9 =>
    cases h
    split
    · exact fun _ => rfl
    · exact fun _ => rfl
  | addReg | addImm | andReg | andImm | not | lea => cases h; exact fun _ => rfl
  | jsr | jsrr | jmp | ret | nop | rti | res | trapOther => cases h; exact fun _ => rfl
  | st | sti | str => cases hi
  | ld | ldr => cases h; exact State.cellsPolled_of_pollAt fun _ => rfl
  | ldi => cases h; exact State.cellsPolled_of_pollAt_pollAt fun _ => rfl
  | trap => exact exec_trap_cellsPolled h
  | trapGetc => exact exec_trap_cellsPolled (vect := 0x20) h
  | trapOut => exact exec_trap_cellsPolled (vect := 0x21) h
  | trapPuts => exact exec_trap_cellsPolled (vect := 0x22) h
  | trapIn => exact exec_trap_cellsPolled (vect := 0x23) h
  | trapPutsp => exact exec_trap_cellsPolled (vect := 0x24) h
  | trapHalt => exact exec_trap_cellsPolled (vect := 0x25) h

/-- The next part of a service leaves memory as its one read of 0xFE00 does, if it makes one (R42, R102, R109). -/
theorem State.resume_cellsPolled (s : State) : ∀ p, State.CellsPolled p.readsKbsr s (s.resume p)
  | .getc => s.cellsKept_awaitGetc
  | .inRead => s.cellsKept_awaitIn
  | .puts a => State.cellsPolled_stringFrom _ _ _ a s
  | .putsp a => State.cellsPolled_stringFrom _ _ _ a s

end Sys2Proof.Machine
end

section
/-! PROOFS of 20_memory.md: reads, stores and the keyboard poll, and the string services that read memory. -/

namespace Sys2Proof.Proofs.Memory

open Sys2Proof Sys2Proof.Machine

/-- Settles O14: a read of 0xFE00 is one poll, which leaves registers, pc, cond and the engine alone. -/
theorem kbsrReadPollsKeyboard : Obligations.KbsrReadPollsKeyboard :=
  fun s => ⟨s.readEffect_pollAt kbsr, fun r _ => s.reg_pollAt kbsr r, s.pollAt_pc kbsr, s.pollAt_cond kbsr,
    s.pollAt_runState kbsr, s.pollAt_pending kbsr⟩

/-- Settles O15: away from 0xFE00 the fetch after the store reads the word stored and moves pc only. -/
theorem storeSeenByNextFetch : Obligations.StoreSeenByNextFetch := by
  intro s v hr hp hpc
  refine ⟨(s.memWrite s.pc v).setPc (s.pc + 1), fun _ => rfl, rfl, fun _ _ => rfl, rfl, ⟨rfl, rfl⟩, ⟨rfl, rfl⟩, ?_⟩
  have hfetch := State.fetch_of_ne (s := s.memWrite s.pc v) hpc
  rw [State.memWrite_pc, State.cell_memWrite, if_pos rfl] at hfetch
  rw [step_of_running (s := s.memWrite s.pc v) hr hp, hfetch]

/-- Settles O46: the services run the string from x[0], which the link write keeps, and poll at most once. -/
theorem stringServicesFrame : Obligations.StringServicesFrame :=
  fun _ s => ⟨⟨s.link.servicePuts, rfl, s.putsRun_servicePuts, State.stringFrom_link_frame rfl⟩,
    ⟨s.link.servicePutsp, rfl, s.putspRun_servicePutsp, State.stringFrom_link_frame rfl⟩⟩

/-- Settles O47: the step is the loop from where the service stands; at 0xFE00 its first word is the polled one, which ends
PUTSP always and PUTS with no input pending, and with some is the first word of a string of one more. -/
theorem stringServiceResumesAtKbsr : Obligations.StringServiceResumesAtKbsr := by
  intro s hr
  refine ⟨fun a hp => ⟨_, step_of_running_pending hr hp, State.putsRun_putsFrom a s, ?_⟩,
    fun a hp => ⟨_, step_of_running_pending hr hp, State.putspRun_putspFrom a s, ?_⟩, fun hp => ?_, fun hp hk => ?_,
    fun c rest n post hp hk hpost hne hwords hend => ?_⟩
  · exact hr ▸ State.stringFrom_frame rfl
  · exact hr ▸ State.stringFrom_frame rfl
  · exact ⟨_, (step_of_running_pending hr hp).trans (congrArg _ s.resume_putsp_kbsr), rfl, s.readEffect_pollAt kbsr⟩
  · have hread := s.readEffect_pollAt kbsr
    rw [s.cell_kbsr_pollAt, if_pos hk] at hread
    exact ⟨_, (step_of_running_pending hr hp).trans (congrArg _ (State.resume_puts_kbsr_nil hk)), rfl, hread⟩
  · have hcells : (s.pollAt kbsr).cell = post := funext fun b => by rw [State.cell_pollAt_kbsr_cons hk, hpost]; rfl
    subst hcells
    refine ⟨_, (step_of_running_pending hr hp).trans (congrArg _ (State.resume_puts_kbsr_cons hk hne hwords hend)), rfl,
      ?_, fun _ => rfl, ?_⟩
    · simp [s.kbdIn_pollAt_kbsr, hk]
    · simp

/-- Settles O54: an instruction by its row, a step inside a service by the service. -/
theorem memoryChangedOnlyByStoresAndHandler : Obligations.MemoryChangedOnlyByStoresAndHandler := by
  refine ⟨fun i s t hi h => exec_cellsPolled hi h, fun p s t hr hp h => ?_⟩
  obtain rfl := step_of_pending hr hp h
  exact s.resume_cellsPolled p

/-- Settles O7: the polled word is 0x0000 with no input pending and 0x8000 with some, and both leave the state after the
fetch but for RTI's FATAL. -/
theorem fetchFromKbsrPolls : Obligations.FetchFromKbsrPolls := by
  intro s hr hp hpc
  have hregs : State.RegsKept [] s (s.pollAt kbsr) := fun r _ => s.reg_pollAt kbsr r
  have hread : State.ReadEffect 0xFE00 ((s.pollAt kbsr).cell kbsr) s (s.pollAt kbsr) := s.readEffect_pollAt kbsr
  have hcond := s.pollAt_cond kbsr
  have hpend := (s.pollAt_pending kbsr).trans hp
  rw [step_of_running hr hp, State.fetch_of_eq hpc]
  cases s.kbdIn with
  | nil =>
    simp only [reduceIte]
    exact ⟨(s.pollAt kbsr).setPc 0xFE01, rfl, rfl, hregs, hcond, hpend, hread, (s.pollAt_runState kbsr).trans hr⟩
  | cons c rest =>
    simp only [reduceCtorEq, reduceIte]
    exact ⟨((s.pollAt kbsr).setPc 0xFE01).raiseFatal .rti, rfl, rfl, hregs, hcond, hpend, hread, rfl⟩

/-- Settles O12: a store is a write of one cell of the list, with no poll. -/
theorem storeWritesOneCell : Obligations.StoreWritesOneCell :=
  fun s a v => ⟨fun b => s.cell_memWrite a b v, fun _ _ => rfl, rfl, rfl, ⟨rfl, rfl⟩, ⟨rfl, rfl⟩⟩

/-- Settles O13: `pollAt` is the poll at 0xFE00 and nothing elsewhere. -/
theorem memReadPollsOnlyAtKbsr : Obligations.MemReadPollsOnlyAtKbsr := by
  refine fun s => ⟨?_, fun a ha => ?_⟩
  · exact Prod.ext (congrArg (State.cell · kbsr) s.pollAt_kbsr) s.pollAt_kbsr
  · rw [State.memRead, State.pollAt_of_ne ha]

end Sys2Proof.Proofs.Memory
end

section
/-! SUPPORT. Decoding by match and mask: the fields a mask keeps, an equation for each row of the opcode table, and what
overlapping rows share. -/

namespace Sys2Proof

/-! ### Fields under a mask -/

/-- A field the mask keeps whole is the match's (R54). -/
theorem field_of_and {w mask pat : Word} {lo len : Nat} (h : w &&& mask = pat)
    (hmask : mask.extractLsb' lo len = BitVec.allOnes len) : w.extractLsb' lo len = pat.extractLsb' lo len := by
  rw [← h, BitVec.extractLsb'_and, hmask, BitVec.and_allOnes]

/-- The opcode of a word under a mask that keeps bits 15:12 (R50). -/
theorem opcode_of_and {w mask pat : Word} (h : w &&& mask = pat) (hmask : mask.extractLsb' 12 4 = BitVec.allOnes 4) :
    w.extractLsb' 12 4 = pat.extractLsb' 12 4 :=
  field_of_and h hmask

/-- A bit the mask keeps is the match's (R54). -/
theorem bit_of_and {w mask pat : Word} (k : Nat) (h : w &&& mask = pat) (hmask : mask.getLsbD k = true) :
    w.getLsbD k = pat.getLsbD k := by
  rw [← h, BitVec.getLsbD_and, hmask, Bool.and_true]

/-- Words that agree under a mask have each field it keeps whole in common. -/
theorem field_congr_of_and {v w mask : Word} (lo len : Nat) (h : v &&& mask = w &&& mask)
    (hmask : mask.extractLsb' lo len = BitVec.allOnes len) : v.extractLsb' lo len = w.extractLsb' lo len :=
  (field_of_and h hmask).trans (field_of_and rfl hmask).symm

/-- Words that agree under a mask match the same rows of smaller masks. -/
theorem and_congr_of_and {v w mask sub pat : Word} (h : v &&& mask = w &&& mask) (hv : v &&& sub = pat)
    (hsub : mask &&& sub = sub) : w &&& sub = pat := by
  rw [← hv, ← hsub, ← BitVec.and_assoc, ← BitVec.and_assoc, h]

/-- The mask of all 16 bits leaves one word (the rows NOP and RET). -/
theorem eq_of_and_full {w pat : Word} (h : w &&& 0xFFFF = pat) : w = pat :=
  (BitVec.and_allOnes (x := w)).symm.trans h

/-! ### Words put together from fields -/

/-- A bit of a word is a field of width 1. -/
theorem ofBool_getLsbD (w : Word) (k : Nat) : BitVec.ofBool (w.getLsbD k) = w.extractLsb' k 1 := by
  simp [BitVec.eq_of_getLsbD_eq_iff]

@[simp] theorem extractLsb'_wordOf {n : Nat} (f : BitVec n) (h : n = 16) (lo len : Nat) :
    (wordOf f h).extractLsb' lo len = f.extractLsb' lo len :=
  BitVec.extractLsb'_cast

@[simp] theorem wordOf_self (w : Word) (h : 16 = 16) : wordOf w h = w := rfl

/-! ### Decoding: an equation for each row of the table (R51, R54, R55) -/

section
variable {w : Word}

theorem decode_nop (h : w &&& 0xFFFF = 0x0000) : decode w = .nop := by
  rw [eq_of_and_full h]; rfl

theorem decode_ret (h : w &&& 0xFFFF = 0xC1C0) : decode w = .ret := by
  rw [eq_of_and_full h]; rfl

theorem decode_br (h : w &&& 0xF000 = 0x0000) (hw : w ≠ 0x0000) :
    decode w = .br (w.getLsbD 11) (w.getLsbD 10) (w.getLsbD 9) (w.extractLsb' 0 9) :=
  (Machine.decode_of_opcode_zero h).trans (if_neg hw)

theorem decode_addReg (h : w &&& 0xF020 = 0x1000) :
    decode w = .addReg (w.extractLsb' 9 3) (w.extractLsb' 6 3) (w.extractLsb' 3 2) (w.extractLsb' 0 3) := by
  rw [decode, opcode_of_and h rfl, bit_of_and 5 h rfl]; rfl

theorem decode_addImm (h : w &&& 0xF020 = 0x1020) :
    decode w = .addImm (w.extractLsb' 9 3) (w.extractLsb' 6 3) (w.extractLsb' 0 5) := by
  rw [decode, opcode_of_and h rfl, bit_of_and 5 h rfl]; rfl

theorem decode_ld (h : w &&& 0xF000 = 0x2000) : decode w = .ld (w.extractLsb' 9 3) (w.extractLsb' 0 9) := by
  rw [decode, opcode_of_and h rfl]; rfl

theorem decode_st (h : w &&& 0xF000 = 0x3000) : decode w = .st (w.extractLsb' 9 3) (w.extractLsb' 0 9) := by
  rw [decode, opcode_of_and h rfl]; rfl

theorem decode_jsr (h : w &&& 0xF800 = 0x4800) : decode w = .jsr (w.extractLsb' 0 11) := by
  rw [decode, opcode_of_and h rfl, bit_of_and 11 h rfl]; rfl

theorem decode_jsrr (h : w &&& 0xF800 = 0x4000) :
    decode w = .jsrr (w.extractLsb' 9 2) (w.extractLsb' 6 3) (w.extractLsb' 0 6) := by
  rw [decode, opcode_of_and h rfl, bit_of_and 11 h rfl]; rfl

theorem decode_andReg (h : w &&& 0xF020 = 0x5000) :
    decode w = .andReg (w.extractLsb' 9 3) (w.extractLsb' 6 3) (w.extractLsb' 3 2) (w.extractLsb' 0 3) := by
  rw [decode, opcode_of_and h rfl, bit_of_and 5 h rfl]; rfl

theorem decode_andImm (h : w &&& 0xF020 = 0x5020) :
    decode w = .andImm (w.extractLsb' 9 3) (w.extractLsb' 6 3) (w.extractLsb' 0 5) := by
  rw [decode, opcode_of_and h rfl, bit_of_and 5 h rfl]; rfl

theorem decode_ldr (h : w &&& 0xF000 = 0x6000) :
    decode w = .ldr (w.extractLsb' 9 3) (w.extractLsb' 6 3) (w.extractLsb' 0 6) := by
  rw [decode, opcode_of_and h rfl]; rfl

theorem decode_str (h : w &&& 0xF000 = 0x7000) :
    decode w = .str (w.extractLsb' 9 3) (w.extractLsb' 6 3) (w.extractLsb' 0 6) := by
  rw [decode, opcode_of_and h rfl]; rfl

theorem decode_rti (h : w &&& 0xF000 = 0x8000) : decode w = .rti (w.extractLsb' 0 12) := by
  rw [decode, opcode_of_and h rfl]; rfl

theorem decode_not (h : w &&& 0xF000 = 0x9000) :
    decode w = .not (w.extractLsb' 9 3) (w.extractLsb' 6 3) (w.extractLsb' 0 6) := by
  rw [decode, opcode_of_and h rfl]; rfl

theorem decode_ldi (h : w &&& 0xF000 = 0xA000) : decode w = .ldi (w.extractLsb' 9 3) (w.extractLsb' 0 9) := by
  rw [decode, opcode_of_and h rfl]; rfl

theorem decode_sti (h : w &&& 0xF000 = 0xB000) : decode w = .sti (w.extractLsb' 9 3) (w.extractLsb' 0 9) := by
  rw [decode, opcode_of_and h rfl]; rfl

theorem decode_jmp (h : w &&& 0xF000 = 0xC000) (hw : w ≠ 0xC1C0) :
    decode w = .jmp (w.extractLsb' 9 3) (w.extractLsb' 6 3) (w.extractLsb' 0 6) := by
  rw [decode, opcode_of_and h rfl]
  exact if_neg hw

theorem decode_res (h : w &&& 0xF000 = 0xD000) : decode w = .res (w.extractLsb' 0 12) := by
  rw [decode, opcode_of_and h rfl]; rfl

theorem decode_lea (h : w &&& 0xF000 = 0xE000) : decode w = .lea (w.extractLsb' 9 3) (w.extractLsb' 0 9) := by
  rw [decode, opcode_of_and h rfl]; rfl

theorem decode_of_opcode_trap (h : w.extractLsb' 12 4 = 0xF#4) :
    decode w = decodeTrap (w.extractLsb' 8 4) (w.extractLsb' 0 8) := by
  rw [decode, h]; rfl

/-- The words of opcode 0xF, whatever row they are of (R100). -/
theorem decode_trapRow (h : w &&& 0xF000 = 0xF000) :
    decode w = decodeTrap (w.extractLsb' 8 4) (w.extractLsb' 0 8) :=
  decode_of_opcode_trap (opcode_of_and h rfl)

theorem decode_trapGetc (h : w &&& 0xF0FF = 0xF020) : decode w = .trapGetc (w.extractLsb' 8 4) := by
  rw [decode_of_opcode_trap (opcode_of_and h rfl), field_of_and (lo := 0) (len := 8) h rfl]; rfl

theorem decode_trapOut (h : w &&& 0xF0FF = 0xF021) : decode w = .trapOut (w.extractLsb' 8 4) := by
  rw [decode_of_opcode_trap (opcode_of_and h rfl), field_of_and (lo := 0) (len := 8) h rfl]; rfl

theorem decode_trapPuts (h : w &&& 0xF0FF = 0xF022) : decode w = .trapPuts (w.extractLsb' 8 4) := by
  rw [decode_of_opcode_trap (opcode_of_and h rfl), field_of_and (lo := 0) (len := 8) h rfl]; rfl

theorem decode_trapIn (h : w &&& 0xF0FF = 0xF023) : decode w = .trapIn (w.extractLsb' 8 4) := by
  rw [decode_of_opcode_trap (opcode_of_and h rfl), field_of_and (lo := 0) (len := 8) h rfl]; rfl

theorem decode_trapPutsp (h : w &&& 0xF0FF = 0xF024) : decode w = .trapPutsp (w.extractLsb' 8 4) := by
  rw [decode_of_opcode_trap (opcode_of_and h rfl), field_of_and (lo := 0) (len := 8) h rfl]; rfl

theorem decode_trapHalt (h : w &&& 0xF0FF = 0xF025) : decode w = .trapHalt (w.extractLsb' 8 4) := by
  rw [decode_of_opcode_trap (opcode_of_and h rfl), field_of_and (lo := 0) (len := 8) h rfl]; rfl

end

/-! ### The rows that share words (R55, log entry 7) -/

theorem servedVector_eq_false_iff {v : BitVec 8} : servedVector v = false ↔
    v ≠ 0x20 ∧ v ≠ 0x21 ∧ v ≠ 0x22 ∧ v ≠ 0x23 ∧ v ≠ 0x24 ∧ v ≠ 0x25 := by
  simp [servedVector, and_assoc]

/-- A vector no service answers to is read by the don't-care bits. -/
theorem decodeTrap_of_not_served {dc : BitVec 4} {vect : BitVec 8} (h : servedVector vect = false) :
    decodeTrap dc vect = if dc = 0 then .trap vect else .trapOther dc vect := by
  obtain ⟨h20, h21, h22, h23, h24, h25⟩ := servedVector_eq_false_iff.mp h
  rw [decodeTrap, if_neg h20, if_neg h21, if_neg h22, if_neg h23, if_neg h24, if_neg h25]

/-- Each of TRAP's rows keeps the word's don't-care bits and vector. -/
theorem encode_decodeTrap (dc : BitVec 4) (vect : BitVec 8) :
    encode (decodeTrap dc vect) = wordOf (0xF#4 ++ dc ++ vect) := by
  fun_cases decodeTrap dc vect <;> subst_vars <;> rfl

theorem wellFormed_decodeTrap (dc : BitVec 4) (vect : BitVec 8) : WellFormed (decodeTrap dc vect) := by
  fun_cases decodeTrap dc vect with
  | case1 | case2 | case3 | case4 | case5 | case6 => rfl
  | case7 h20 h21 h22 h23 h24 h25 =>
    have hv := servedVector_eq_false_iff.mpr ⟨h20, h21, h22, h23, h24, h25⟩
    simp [WellFormed, Instr.wellFormed, hv]
  | case8 h20 h21 h22 h23 h24 h25 hdc =>
    have hv := servedVector_eq_false_iff.mpr ⟨h20, h21, h22, h23, h24, h25⟩
    simpa [WellFormed, Instr.wellFormed, hv] using hdc

theorem fields_encode_br (n z p : Bool) (off9 : BitVec 9) :
    (encode (.br n z p off9)).getLsbD 11 = n ∧ (encode (.br n z p off9)).getLsbD 10 = z ∧
      (encode (.br n z p off9)).getLsbD 9 = p ∧ (encode (.br n z p off9)).extractLsb' 0 9 = off9 := by
  simp [-Nat.reduceAdd, -BitVec.getLsbD_eq_getElem, encode, BitVec.getLsbD_append, BitVec.extractLsb'_append_eq_of_add_le]

theorem fields_encode_jmp (dcHi : BitVec 3) (base : RegIdx) (dcLo : BitVec 6) :
    (encode (.jmp dcHi base dcLo)).extractLsb' 9 3 = dcHi ∧ (encode (.jmp dcHi base dcLo)).extractLsb' 6 3 = base ∧
      (encode (.jmp dcHi base dcLo)).extractLsb' 0 6 = dcLo := by
  simp [-Nat.reduceAdd, encode, BitVec.extractLsb'_append_eq_of_le, BitVec.extractLsb'_append_eq_of_add_le]

/-- A TRAP word is read by its don't-care bits and its vector. -/
theorem decode_encode_trapOther (dc : BitVec 4) (vect : BitVec 8) :
    decode (encode (.trapOther dc vect)) = decodeTrap dc vect := by
  rw [decode_trapRow (Laws.RowMatch.trapOther dc vect)]
  simp [-Nat.reduceAdd, encode, BitVec.extractLsb'_append_eq_of_le, BitVec.extractLsb'_append_eq_of_add_le]

/-- The one word of BR's row that BR does not take is NOP's. -/
theorem wellFormed_br_iff {n z p : Bool} {off9 : BitVec 9} :
    WellFormed (.br n z p off9) ↔ encode (.br n z p off9) ≠ 0x0000 := by
  obtain ⟨hn, hz, hp, hoff⟩ := fields_encode_br n z p off9
  refine ⟨fun hwf h0 => ?_, fun h => ?_⟩
  · rw [h0] at hn hz hp hoff
    subst hn hz hp hoff
    exact absurd hwf (by decide)
  · by_contra hwf
    simp only [WellFormed, Instr.wellFormed, Bool.or_eq_true, bne_iff_ne, ne_eq, not_or, Bool.not_eq_true, not_not] at hwf
    obtain ⟨⟨⟨rfl, rfl⟩, rfl⟩, rfl⟩ := hwf
    exact h rfl

/-- The one word of JMP's row that JMP does not take is RET's. -/
theorem wellFormed_jmp_iff {dcHi : BitVec 3} {base : RegIdx} {dcLo : BitVec 6} :
    WellFormed (.jmp dcHi base dcLo) ↔ encode (.jmp dcHi base dcLo) ≠ 0xC1C0 := by
  obtain ⟨hhi, hbase, hlo⟩ := fields_encode_jmp dcHi base dcLo
  refine ⟨fun hwf h0 => ?_, fun h => ?_⟩
  · rw [h0] at hhi hbase hlo
    subst hhi hbase hlo
    exact absurd hwf (by decide)
  · by_contra hwf
    simp only [WellFormed, Instr.wellFormed, Bool.or_eq_true, bne_iff_ne, ne_eq, not_or, not_not] at hwf
    obtain ⟨⟨rfl, rfl⟩, rfl⟩ := hwf
    exact h rfl

/-! ### The word of a decoded word -/

/-- Encoding puts a word's own bits back together (R50): the opcode, the mode bit of its arm, and its fields. -/
theorem encode_decode (w : Word) : encode (decode w) = w := by
  fun_cases decode w with
  | case1 _ h => exact h.symm
  | case17 _ h => exact h.symm
  | case2 hop =>
    simp [-Nat.reduceAdd, -BitVec.getLsbD_eq_getElem, encode, ← hop, ofBool_getLsbD,
      BitVec.extractLsb'_append_extractLsb'_eq_extractLsb']
  | case3 hop h | case9 hop h =>
    have hmode : w.extractLsb' 5 1 = 1#1 := by rw [← ofBool_getLsbD, h]; rfl
    simp [-Nat.reduceAdd, encode, ← hop, ← hmode, BitVec.extractLsb'_append_extractLsb'_eq_extractLsb']
  | case4 hop h | case10 hop h =>
    have hmode : w.extractLsb' 5 1 = 0#1 := by rw [← ofBool_getLsbD, Bool.eq_false_of_not_eq_true h]; rfl
    simp [-Nat.reduceAdd, encode, ← hop, ← hmode, BitVec.extractLsb'_append_extractLsb'_eq_extractLsb']
  | case7 hop h =>
    have hmode : w.extractLsb' 11 1 = 1#1 := by rw [← ofBool_getLsbD, h]; rfl
    simp [-Nat.reduceAdd, encode, ← hop, ← hmode, BitVec.extractLsb'_append_extractLsb'_eq_extractLsb']
  | case8 hop h =>
    have hmode : w.extractLsb' 11 1 = 0#1 := by rw [← ofBool_getLsbD, Bool.eq_false_of_not_eq_true h]; rfl
    simp [-Nat.reduceAdd, encode, ← hop, ← hmode, BitVec.extractLsb'_append_extractLsb'_eq_extractLsb']
  | case5 hop | case6 hop | case11 hop | case12 hop | case13 hop | case14 hop | case15 hop | case16 hop | case18 hop
  | case19 hop | case20 hop =>
    simp [-Nat.reduceAdd, encode, ← hop, BitVec.extractLsb'_append_extractLsb'_eq_extractLsb']
  | case21 =>
    have hop : w.extractLsb' 12 4 = 0xF#4 := by
      generalize w.extractLsb' 12 4 = op at *
      revert op
      decide
    simp [-Nat.reduceAdd, encode_decodeTrap, ← hop, BitVec.extractLsb'_append_extractLsb'_eq_extractLsb']

/-- BR and JMP are not given the words of NOP and RET, nor TRAP's rows each other's (R55). -/
theorem wellFormed_decode (w : Word) : WellFormed (decode w) := by
  have hw := encode_decode w
  revert hw
  fun_cases decode w with
  | case2 _ h => exact fun hw => wellFormed_br_iff.mpr (hw.trans_ne h)
  | case18 _ h => exact fun hw => wellFormed_jmp_iff.mpr (hw.trans_ne h)
  | case21 => exact fun _ => wellFormed_decodeTrap _ _
  | _ => exact fun _ => rfl

end Sys2Proof
end

section
/-! SUPPORT. What is executed for the words of the rows with don't-care bits, and sign extension bit by bit. -/

namespace Sys2Proof.Machine

/-! ### Execution reads no don't-care bit (R56) -/

section
variable {w : Word}

theorem exec_decode_addReg (h : w &&& 0xF020 = 0x1000) (s : State) :
    exec (decode w) s = execAddReg (w.extractLsb' 9 3) (w.extractLsb' 6 3) (w.extractLsb' 0 3) s := by
  rw [decode_addReg h]; rfl

theorem exec_decode_andReg (h : w &&& 0xF020 = 0x5000) (s : State) :
    exec (decode w) s = execAndReg (w.extractLsb' 9 3) (w.extractLsb' 6 3) (w.extractLsb' 0 3) s := by
  rw [decode_andReg h]; rfl

theorem exec_decode_not (h : w &&& 0xF000 = 0x9000) (s : State) :
    exec (decode w) s = execNot (w.extractLsb' 9 3) (w.extractLsb' 6 3) s := by
  rw [decode_not h]; rfl

/-- RET is JMP through the link register (R92). -/
theorem exec_decode_jmp (h : w &&& 0xF000 = 0xC000) (s : State) :
    exec (decode w) s = execJmp (w.extractLsb' 6 3) s := by
  by_cases hw : w = 0xC1C0
  · subst hw; rfl
  · rw [decode_jmp h hw]; rfl

theorem exec_decode_jsrr (h : w &&& 0xF800 = 0x4000) (s : State) :
    exec (decode w) s = execJsrr (w.extractLsb' 6 3) s := by
  rw [decode_jsrr h]; rfl

/-- A vector no service answers to does nothing beyond the link write (R108). -/
theorem State.service_of_not_served {vect : BitVec 8} (hv : servedVector vect = false) (s : State) :
    s.service vect = s := by
  obtain ⟨h20, h21, h22, h23, h24, h25⟩ := servedVector_eq_false_iff.mp hv
  rw [State.service, if_neg h20, if_neg h21, if_neg h22, if_neg h23, if_neg h24, if_neg h25]

/-- The service rows and the row of the other vectors do what TRAP's dispatch does for their vectors (R100, R108). -/
theorem exec_decodeTrap (dc : BitVec 4) (vect : BitVec 8) (s : State) :
    exec (decodeTrap dc vect) s = execTrap vect s := by
  fun_cases decodeTrap dc vect with
  | case1 | case2 | case3 | case4 | case5 | case6 | case7 => subst_vars; rfl
  | case8 h20 h21 h22 h23 h24 h25 =>
    have hv := servedVector_eq_false_iff.mpr ⟨h20, h21, h22, h23, h24, h25⟩
    rw [execTrap, State.service_of_not_served hv]; rfl

theorem exec_decode_trap (h : w &&& 0xF000 = 0xF000) (s : State) :
    exec (decode w) s = execTrap (w.extractLsb' 0 8) s := by
  rw [decode_trapRow h, exec_decodeTrap]

theorem exec_decode_rti (h : w &&& 0xF000 = 0x8000) (s : State) : exec (decode w) s = execRti s := by
  rw [decode_rti h]; rfl

theorem exec_decode_res (h : w &&& 0xF000 = 0xD000) (s : State) : exec (decode w) s = execRes s := by
  rw [decode_res h]; rfl

end

/-! ### Sign extension (R52, R53) -/

/-- The mask of `sext_N` keeps the bits below N. -/
theorem getLsbD_lowMask {n k : Nat} (v : Word) (hk : k < 16) :
    (v &&& BitVec.ofNat 16 (2 ^ n - 1)).getLsbD k = (v.getLsbD k && decide (k < n)) := by
  rw [BitVec.getLsbD_and, BitVec.getLsbD_ofNat, Nat.testBit_two_pow_sub_one, decide_eq_true hk, Bool.true_and]

/-- The fill of `sext_N`: ones from bit N on. -/
theorem getLsbD_fill {n k : Nat} (hk : k < 16) : (0xFFFF#16 <<< n).getLsbD k = !decide (k < n) := by
  have hones : (0xFFFF#16).getLsbD (k - n) = true :=
    (BitVec.getLsbD_allOnes (v := 16)).trans (decide_eq_true (by omega))
  rw [BitVec.getLsbD_shiftLeft, hones, decide_eq_true hk, Bool.true_and, Bool.and_true]

/-- `sext_N` bit by bit: bit N-1 of the value stands in every bit from N on. -/
theorem getLsbD_sext {n k : Nat} (v : Word) (h1 : 1 ≤ n) (hn : n ≤ 16) (hk : k < 16) :
    (sext n v).getLsbD k = if k < n then v.getLsbD k else v.getLsbD (n - 1) := by
  have hsign : (v &&& BitVec.ofNat 16 (2 ^ n - 1)).getLsbD (n - 1) = v.getLsbD (n - 1) := by
    rw [getLsbD_lowMask v (by omega), decide_eq_true (by omega), Bool.and_true]
  simp only [sext, hsign]
  cases hs : v.getLsbD (n - 1) with
  | true =>
    rw [if_pos rfl, BitVec.getLsbD_or, getLsbD_lowMask v hk, getLsbD_fill hk]
    by_cases hkn : k < n
    · simp [hkn]
    · simp [hkn]
  | false =>
    rw [if_neg Bool.false_ne_true, getLsbD_lowMask v hk]
    by_cases hkn : k < n
    · simp [hkn]
    · simp [hkn]

/-- A field's word is the library's sign extension of the field. -/
theorem sextField_eq_signExtend {n : Nat} (h1 : 1 ≤ n) (hn : n ≤ 16) (f : BitVec n) :
    sextField f = f.signExtend 16 := by
  refine BitVec.eq_of_getLsbD_eq fun k hk => ?_
  have hfield : ∀ j < 16, (f.setWidth 16).getLsbD j = f.getLsbD j := fun j hj => by
    rw [BitVec.getLsbD_setWidth, decide_eq_true hj, Bool.true_and]
  rw [sextField, getLsbD_sext _ h1 hn hk, hfield k hk, hfield (n - 1) (by omega), BitVec.getLsbD_signExtend,
    BitVec.msb_eq_getLsbD_last, decide_eq_true hk, Bool.true_and]
/-- A field keeps its two's-complement value. -/
theorem toInt_sextField {n : Nat} (h1 : 1 ≤ n) (hn : n ≤ 16) (f : BitVec n) : (sextField f).toInt = f.toInt := by
  rw [sextField_eq_signExtend h1 hn, BitVec.toInt_signExtend_of_le hn]

end Sys2Proof.Machine
end

section
/-! PROOFS of 30_encoding.md: the decoder against the opcode table and the encoder, don't-care bits, and signed fields. -/

namespace Sys2Proof.Proofs.Encoding

open Sys2Proof Sys2Proof.Machine

/-- Settles O1: the instruction's word matches its row, so it decodes to the row's instruction, and each field read from the
word is the field written there. -/
theorem decodeEncodeRoundTrip : Obligations.DecodeEncodeRoundTrip := by
  intro i hi
  cases i
  case nop => rfl
  case ret => rfl
  case br n z p off9 =>
    obtain ⟨hn, hz, hp, hoff⟩ := fields_encode_br n z p off9
    rw [decode_br (Laws.RowMatch.br ..) (wellFormed_br_iff.mp hi), hn, hz, hp, hoff]
  case jmp dcHi base dcLo =>
    obtain ⟨hhi, hbase, hlo⟩ := fields_encode_jmp dcHi base dcLo
    rw [decode_jmp (Laws.RowMatch.jmp ..) (wellFormed_jmp_iff.mp hi), hhi, hbase, hlo]
  case trap vect =>
    have hv : servedVector vect = false := by simpa [WellFormed, Instr.wellFormed] using hi
    exact (decode_encode_trapOther 0 vect).trans (decodeTrap_of_not_served hv)
  case trapOther dc vect =>
    obtain ⟨hdc, hv⟩ : dc ≠ 0 ∧ servedVector vect = false := by simpa [WellFormed, Instr.wellFormed] using hi
    exact (decode_encode_trapOther dc vect).trans ((decodeTrap_of_not_served hv).trans (if_neg hdc))
  case trapGetc dc => exact decode_encode_trapOther dc 0x20
  case trapOut dc => exact decode_encode_trapOther dc 0x21
  case trapPuts dc => exact decode_encode_trapOther dc 0x22
  case trapIn dc => exact decode_encode_trapOther dc 0x23
  case trapPutsp dc => exact decode_encode_trapOther dc 0x24
  case trapHalt dc => exact decode_encode_trapOther dc 0x25
  case' addReg => rw [decode_addReg (Laws.RowMatch.addReg ..)]
  case' addImm => rw [decode_addImm (Laws.RowMatch.addImm ..)]
  case' ld => rw [decode_ld (Laws.RowMatch.ld ..)]
  case' st => rw [decode_st (Laws.RowMatch.st ..)]
  case' jsr => rw [decode_jsr (Laws.RowMatch.jsr ..)]
  case' jsrr => rw [decode_jsrr (Laws.RowMatch.jsrr ..)]
  case' andReg => rw [decode_andReg (Laws.RowMatch.andReg ..)]
  case' andImm => rw [decode_andImm (Laws.RowMatch.andImm ..)]
  case' ldr => rw [decode_ldr (Laws.RowMatch.ldr ..)]
  case' str => rw [decode_str (Laws.RowMatch.str ..)]
  case' rti => rw [decode_rti (Laws.RowMatch.rti ..)]
  case' not => rw [decode_not (Laws.RowMatch.not ..)]
  case' ldi => rw [decode_ldi (Laws.RowMatch.ldi ..)]
  case' sti => rw [decode_sti (Laws.RowMatch.sti ..)]
  case' res => rw [decode_res (Laws.RowMatch.res ..)]
  case' lea => rw [decode_lea (Laws.RowMatch.lea ..)]
  all_goals
    simp [-Nat.reduceAdd, encode, BitVec.extractLsb'_append_eq_of_le, BitVec.extractLsb'_append_eq_of_add_le]

/-- Settles O2: each arm of the decoder keeps all 16 bits, and BR and JMP are not given the words of NOP and RET. -/
theorem encodeDecodeRoundTrip : Obligations.EncodeDecodeRoundTrip :=
  fun w => ⟨wellFormed_decode w, encode_decode w⟩

/-- Settles O3, row by row. -/
theorem decodeFollowsOpcodeTable : Obligations.DecodeFollowsOpcodeTable :=
  fun _ => ⟨decode_nop, decode_ret, decode_br, decode_addReg, decode_addImm, decode_ld, decode_st, decode_jsr, decode_jsrr,
    decode_andReg, decode_andImm, decode_ldr, decode_str, decode_rti, decode_not, decode_ldi, decode_sti, decode_jmp,
    decode_res, decode_lea, decode_trapGetc, decode_trapOut, decode_trapPuts, decode_trapIn, decode_trapPutsp,
    decode_trapHalt, fun h hv => (decode_trapRow h).trans (decodeTrap_of_not_served hv)⟩

/-- Settles O5: the words are of one row, and execution reads only fields they have in common. -/
theorem dontCareBitsIgnored : Obligations.DontCareBitsIgnored := by
  refine fun v w s => ⟨fun hv hvw => ?_, fun hv hvw => ?_, fun hv hvw => ?_, fun hv hvw => ?_, fun hv hvw => ?_,
    fun hv hvw => ?_⟩
  · have hdr := field_congr_of_and 9 3 hvw rfl
    have hsr1 := field_congr_of_and 6 3 hvw rfl
    have hsr2 := field_congr_of_and 0 3 hvw rfl
    obtain hv | hv := hv
    · rw [exec_decode_addReg hv, exec_decode_addReg (and_congr_of_and hvw hv rfl), hdr, hsr1, hsr2]
    · rw [exec_decode_andReg hv, exec_decode_andReg (and_congr_of_and hvw hv rfl), hdr, hsr1, hsr2]
  · rw [exec_decode_not hv, exec_decode_not (and_congr_of_and hvw hv rfl), field_congr_of_and 9 3 hvw rfl,
      field_congr_of_and 6 3 hvw rfl]
  · rw [exec_decode_jmp hv, exec_decode_jmp (and_congr_of_and hvw hv rfl), field_congr_of_and 6 3 hvw rfl]
  · rw [exec_decode_jsrr hv, exec_decode_jsrr (and_congr_of_and hvw hv rfl), field_congr_of_and 6 3 hvw rfl]
  · rw [exec_decode_trap hv, exec_decode_trap (and_congr_of_and hvw hv rfl), field_congr_of_and 0 8 hvw rfl]
  · obtain hv | hv := hv
    · rw [exec_decode_rti hv, exec_decode_rti (and_congr_of_and hvw hv rfl)]
    · rw [exec_decode_res hv, exec_decode_res (and_congr_of_and hvw hv rfl)]

/-- Settles O19: the mask gives the bits below N, the fill the bits from N on. -/
theorem signExtendCopiesSignBit : Obligations.SignExtendCopiesSignBit :=
  fun _ v _ h1 hn hk => getLsbD_sext v h1 hn hk

/-- Settles O4: each word by its row. -/
theorem sampleWordsDecode : Obligations.SampleWordsDecode :=
  ⟨decode_trapHalt rfl, decode_addReg rfl, decode_addImm rfl, decode_ld rfl, decode_str rfl, decode_br rfl (by decide),
    decode_ret rfl, decode_jsr rfl, decode_rti rfl⟩

/-- Settles O20: a field's word is its sign extension, for each of the four widths. -/
theorem fieldsAreSigned : Obligations.FieldsAreSigned :=
  ⟨toInt_sextField (by decide) (by decide), toInt_sextField (by decide) (by decide),
    toInt_sextField (by decide) (by decide), toInt_sextField (by decide) (by decide)⟩

end Sys2Proof.Proofs.Encoding
end

section
/-! SUPPORT. The operate instructions as the one result each writes, and what writing a result does to the whole state. -/

namespace Sys2Proof.Machine

/-! ### An equation for each operate instruction (R70 to R74) -/

theorem exec_addReg (dr sr1 sr2 : RegIdx) (dc : BitVec 2) (s : State) :
    exec (.addReg dr sr1 dc sr2) s = .next (s.writeResult dr (s.reg sr1 + s.reg sr2)) := rfl

theorem exec_addImm (dr sr1 : RegIdx) (imm5 : BitVec 5) (s : State) :
    exec (.addImm dr sr1 imm5) s = .next (s.writeResult dr (s.reg sr1 + sextField imm5)) := rfl

theorem exec_andReg (dr sr1 sr2 : RegIdx) (dc : BitVec 2) (s : State) :
    exec (.andReg dr sr1 dc sr2) s = .next (s.writeResult dr (s.reg sr1 &&& s.reg sr2)) := rfl

theorem exec_andImm (dr sr1 : RegIdx) (imm5 : BitVec 5) (s : State) :
    exec (.andImm dr sr1 imm5) s = .next (s.writeResult dr (s.reg sr1 &&& sextField imm5)) := rfl

/-- NOT, its exclusive or with all ones read as the complement. -/
theorem exec_not (dr sr1 : RegIdx) (dc : BitVec 6) (s : State) :
    exec (.not dr sr1 dc) s = .next (s.writeResult dr (~~~ s.reg sr1)) :=
  congrArg (fun v => Host.Outcome.next (s.writeResult dr v)) (BitVec.xor_allOnes (x := s.reg sr1))

/-! ### Writing a result -/

theorem State.reg_writeResult_same (s : State) (dr : RegIdx) (v : Word) : (s.writeResult dr v).reg dr = v := by
  rw [State.reg_writeResult, if_pos rfl]

/-- A written result sets cond from the register it is in, and nothing but the two is changed (R15, R70). -/
theorem State.writeResult_frame (s : State) (dr : RegIdx) (v : Word) :
    (s.writeResult dr v).cond = condOf ((s.writeResult dr v).reg dr) ∧ State.RegsKept [dr] s (s.writeResult dr v) ∧
      (s.writeResult dr v).pc = s.pc ∧ State.CellsKept s (s.writeResult dr v) ∧
      State.ConsoleKept s (s.writeResult dr v) ∧ State.EngineKept s (s.writeResult dr v) := by
  refine ⟨?_, fun r hr => ?_, s.writeResult_pc dr v, s.cell_writeResult dr v, ⟨rfl, rfl⟩, ⟨rfl, rfl⟩⟩
  · rw [State.writeResult_cond, State.reg_writeResult_same]
  · rw [State.reg_writeResult, if_neg (List.ne_of_not_mem_cons hr)]

end Sys2Proof.Machine
end

section
/-! PROOFS of 40_operate.md: ADD, AND and NOT. -/

namespace Sys2Proof.Proofs.Operate

open Sys2Proof Sys2Proof.Machine

/-- Settles O21: the result is a sum of words, so its value is the sum modulo 2^16. -/
theorem addWraps : Obligations.AddWraps := by
  refine fun dr sr1 sr2 dc imm5 s => ⟨⟨_, exec_addReg dr sr1 sr2 dc s, ?_, s.writeResult_frame dr _⟩,
    ⟨_, exec_addImm dr sr1 imm5 s, ?_, s.writeResult_frame dr _⟩⟩
  · rw [State.reg_writeResult_same]
    exact BitVec.toNat_add ..
  · rw [State.reg_writeResult_same]
    exact BitVec.toNat_add ..

/-- Settles O22: each bit of the result is the AND of the operands' bits. -/
theorem andIsBitwise : Obligations.AndIsBitwise := by
  refine fun dr sr1 sr2 dc imm5 s => ⟨⟨_, exec_andReg dr sr1 sr2 dc s, fun k => ?_, s.writeResult_frame dr _⟩,
    ⟨_, exec_andImm dr sr1 imm5 s, fun k => ?_, s.writeResult_frame dr _⟩⟩
  · rw [State.reg_writeResult_same, BitVec.getLsbD_and]
  · rw [State.reg_writeResult_same, BitVec.getLsbD_and, sextField]

/-- Settles O23: the result is the complement, whose bits below 16 are the operand's bits negated. -/
theorem notComplements : Obligations.NotComplements := by
  refine fun dr sr1 dc s => ⟨_, exec_not dr sr1 dc s, fun k hk => ?_, s.writeResult_frame dr _⟩
  rw [State.reg_writeResult_same, BitVec.getLsbD_not, decide_eq_true hk, Bool.true_and]

/-- Settles O24: both modes write the same result, since the immediate's word is its field sign-extended. -/
theorem immediateAgreesWithRegister : Obligations.ImmediateAgreesWithRegister := by
  intro dr sr1 sr2 dc imm5 s hsr2
  have himm : sextField imm5 = s.reg sr2 := (sextField_eq_signExtend (by decide) (by decide) imm5).trans hsr2.symm
  exact ⟨by rw [exec_addImm, exec_addReg, himm], by rw [exec_andImm, exec_andReg, himm]⟩

end Sys2Proof.Proofs.Operate
end

section
/-! SUPPORT. The data-movement instructions as one read, one store or one written result each, and what a read and a load do
to the whole state. -/

namespace Sys2Proof.Machine

/-! ### An equation for each data-movement instruction (R80 to R86) -/

theorem exec_ld (dr : RegIdx) (off9 : BitVec 9) (s : State) :
    exec (.ld dr off9) s = .next (s.loadFrom dr (s.pcRel9 off9)) := rfl

/-- LDI: a load through the pointer, from the state the pointer's read leaves. -/
theorem exec_ldi (dr : RegIdx) (off9 : BitVec 9) (s : State) :
    exec (.ldi dr off9) s =
      .next ((s.pollAt (s.pcRel9 off9)).loadFrom dr ((s.pollAt (s.pcRel9 off9)).cell (s.pcRel9 off9))) := rfl

theorem exec_ldr (dr base : RegIdx) (off6 : BitVec 6) (s : State) :
    exec (.ldr dr base off6) s = .next (s.loadFrom dr (s.baseOff6 base off6)) := rfl

theorem exec_lea (dr : RegIdx) (off9 : BitVec 9) (s : State) :
    exec (.lea dr off9) s = .next (s.writeResult dr (s.pcRel9 off9)) := rfl

theorem exec_st (sr : RegIdx) (off9 : BitVec 9) (s : State) :
    exec (.st sr off9) s = .next (s.memWrite (s.pcRel9 off9) (s.reg sr)) := rfl

/-- STI: a store through the pointer, to the state the pointer's read leaves. -/
theorem exec_sti (sr : RegIdx) (off9 : BitVec 9) (s : State) :
    exec (.sti sr off9) s =
      .next ((s.pollAt (s.pcRel9 off9)).memWrite ((s.pollAt (s.pcRel9 off9)).cell (s.pcRel9 off9)) (s.reg sr)) := rfl

theorem exec_str (sr base : RegIdx) (off6 : BitVec 6) (s : State) :
    exec (.str sr base off6) s = .next (s.memWrite (s.baseOff6 base off6) (s.reg sr)) := rfl

/-! ### One part after another -/

theorem State.RegsKept.trans {ds : List RegIdx} {s m t : State} (h₁ : State.RegsKept ds s m)
    (h₂ : State.RegsKept ds m t) : State.RegsKept ds s t := fun r hr => (h₂ r hr).trans (h₁ r hr)

theorem State.EngineKept.trans {s m t : State} (h₁ : State.EngineKept s m) (h₂ : State.EngineKept m t) :
    State.EngineKept s t := ⟨h₂.1.trans h₁.1, h₂.2.trans h₁.2⟩

/-- What comes after a read and touches neither memory nor the console leaves the read's effect. -/
theorem State.ReadEffect.of_kept {a w : Word} {s m t : State} (h : State.ReadEffect a w s m)
    (hcells : State.CellsKept m t) (hconsole : State.ConsoleKept m t) : State.ReadEffect a w s t := by
  have hcell : t.cell = m.cell := funext hcells
  obtain ⟨hkbd, hout⟩ := hconsole
  unfold State.ReadEffect
  rwa [hcell, hkbd, hout]

/-! ### A read and a load -/

/-- A read writes no register and leaves pc and the engine alone (R31, R32). -/
theorem State.pollAt_frame (ds : List RegIdx) (s : State) (a : Word) :
    State.RegsKept ds s (s.pollAt a) ∧ (s.pollAt a).pc = s.pc ∧ State.EngineKept s (s.pollAt a) :=
  ⟨fun r _ => s.reg_pollAt a r, s.pollAt_pc a, s.pollAt_runState a, s.pollAt_pending a⟩

/-- A load is one read, whose word goes to x[dr] and sets cond (R80, R82). -/
theorem State.loadFrom_effect (s : State) (dr : RegIdx) (ea : Word) :
    State.ReadEffect ea ((s.loadFrom dr ea).reg dr) s (s.loadFrom dr ea) ∧
      (s.loadFrom dr ea).cond = condOf ((s.loadFrom dr ea).reg dr) ∧ State.RegsKept [dr] s (s.loadFrom dr ea) ∧
      (s.loadFrom dr ea).pc = s.pc ∧ State.EngineKept s (s.loadFrom dr ea) := by
  have hload : s.loadFrom dr ea = (s.pollAt ea).writeResult dr ((s.pollAt ea).cell ea) := rfl
  obtain ⟨hcond, hregs, hpc, hcells, hconsole, hengine⟩ := (s.pollAt ea).writeResult_frame dr ((s.pollAt ea).cell ea)
  obtain ⟨hregs₀, hpc₀, hengine₀⟩ := s.pollAt_frame [dr] ea
  rw [hload]
  refine ⟨?_, hcond, hregs₀.trans hregs, hpc.trans hpc₀, hengine₀.trans hengine⟩
  rw [State.reg_writeResult_same]
  exact (s.readEffect_pollAt ea).of_kept hcells hconsole

end Sys2Proof.Machine
end

section
/-! PROOFS of 41_load_store.md: loads, stores and LEA. -/

namespace Sys2Proof.Proofs.LoadStore

open Sys2Proof Sys2Proof.Machine

/-- Settles O26: the state between the reads is the one the pointer's read leaves, and from it LDI is a load. -/
theorem ldiLoadsIndirect : Obligations.LdiLoadsIndirect := by
  intro dr off9 s
  obtain ⟨hregs₀, hpc₀, hengine₀⟩ := s.pollAt_frame [dr] (s.pcRel9 off9)
  obtain ⟨hdata, hcond, hregs, hpc, hengine⟩ :=
    (s.pollAt (s.pcRel9 off9)).loadFrom_effect dr ((s.pollAt (s.pcRel9 off9)).cell (s.pcRel9 off9))
  exact ⟨_, _, _, exec_ldi dr off9 s, s.readEffect_pollAt (s.pcRel9 off9), hdata, hcond, hregs₀.trans hregs,
    hpc.trans hpc₀, hengine₀.trans hengine⟩

/-- Settles O30: the store is made in the state the pointer's read leaves, which has the registers of the start. -/
theorem stiStoresIndirect : Obligations.StiStoresIndirect := by
  intro sr off9 s
  obtain ⟨hregs₀, hpc₀, hengine₀⟩ := s.pollAt_frame [] (s.pcRel9 off9)
  obtain ⟨hcells, hregs, hpc, hcond, hconsole, hengine⟩ := Memory.storeWritesOneCell (s.pollAt (s.pcRel9 off9))
    ((s.pollAt (s.pcRel9 off9)).cell (s.pcRel9 off9)) (s.reg sr)
  exact ⟨_, _, _, exec_sti sr off9 s, s.readEffect_pollAt (s.pcRel9 off9), hcells, hconsole, hregs₀.trans hregs,
    hcond.trans (s.pollAt_cond _), hpc.trans hpc₀, hengine₀.trans hengine⟩

/-- Settles O25: LD is a load from the PC-relative address. -/
theorem ldLoads : Obligations.LdLoads := fun dr off9 s => ⟨_, exec_ld dr off9 s, s.loadFrom_effect dr (s.pcRel9 off9)⟩

/-- Settles O27: LDR is a load from an address that is read from the start state. -/
theorem ldrLoads : Obligations.LdrLoads :=
  fun dr base off6 s => ⟨_, exec_ldr dr base off6 s, s.loadFrom_effect dr (s.baseOff6 base off6)⟩

/-- Settles O28: LEA writes its address as a result, and a written result touches neither memory nor the console. -/
theorem leaLoadsAddress : Obligations.LeaLoadsAddress :=
  fun dr off9 s => ⟨_, exec_lea dr off9 s, s.reg_writeResult_same dr (s.pcRel9 off9), s.writeResult_frame dr _⟩

/-- Settles O29: ST is the one store of O12. -/
theorem stStores : Obligations.StStores := by
  intro sr off9 s
  obtain ⟨hcells, hregs, hpc, hcond, hkept⟩ := Memory.storeWritesOneCell s (s.pcRel9 off9) (s.reg sr)
  exact ⟨_, exec_st sr off9 s, hcells, hregs, hcond, hpc, hkept⟩

/-- Settles O31: STR is the one store of O12, at an address and of a value read from the start state. -/
theorem strStores : Obligations.StrStores := by
  intro sr base off6 s
  obtain ⟨hcells, hregs, hpc, hcond, hkept⟩ := Memory.storeWritesOneCell s (s.baseOff6 base off6) (s.reg sr)
  exact ⟨_, exec_str sr base off6 s, hcells, hregs, hcond, hpc, hkept⟩

end Sys2Proof.Proofs.LoadStore
end

section
/-! SUPPORT. The control transfers as the one pc each sets, with the link before it where there is one, and that the
other instructions and the services keep pc. -/

namespace Sys2Proof.Machine

/-! ### An equation for each control transfer (R90 to R94) -/

/-- BR's test on the flag held, in R90's own words. -/
theorem Cond.taken_iff (c : Cond) (n z p : Bool) :
    c.taken n z p = true ↔ (n = true ∧ c = .neg) ∨ (z = true ∧ c = .zero) ∨ (p = true ∧ c = .pos) := by
  simp [Cond.taken, or_assoc]

/-- BR: pc is set whether the branch is taken or not, to itself if it is not. -/
theorem exec_br (n z p : Bool) (off9 : BitVec 9) (s : State) :
    exec (.br n z p off9) s = .next (s.setPc (if s.cond.taken n z p then s.pcRel9 off9 else s.pc)) := by
  simp only [exec, execBr]
  split
  · rfl
  · rfl

theorem exec_nop (s : State) : exec .nop s = .next s := rfl

theorem exec_jmp (dcHi : BitVec 3) (base : RegIdx) (dcLo : BitVec 6) (s : State) :
    exec (.jmp dcHi base dcLo) s = .next (s.setPc (s.reg base)) := rfl

theorem exec_ret (s : State) : exec .ret s = .next (s.setPc (s.reg linkReg)) := rfl

theorem exec_jsr (off11 : BitVec 11) (s : State) : exec (.jsr off11) s = .next (s.link.setPc (s.pcRel11 off11)) := rfl

/-- JSRR: the base is read after the link write, so x[7] gives the link just written (D19). -/
theorem exec_jsrr (dcHi : BitVec 2) (base : RegIdx) (dcLo : BitVec 6) (s : State) :
    exec (.jsrr dcHi base dcLo) s = .next (s.link.setPc (if base = linkReg then s.pc else s.reg base)) :=
  congrArg (fun v => Host.Outcome.next (s.link.setPc v)) (s.reg_link base)

/-- A linked transfer: x[7] holds the pc of the start, pc the target, and nothing else is changed (R93, R94). -/
theorem State.link_setPc_effect (s : State) (target : Word) :
    (s.link.setPc target).reg linkReg = s.pc ∧ (s.link.setPc target).pc = target ∧
      State.RegsKept [linkReg] s (s.link.setPc target) ∧ (s.link.setPc target).cond = s.cond ∧
      State.CellsKept s (s.link.setPc target) ∧ State.ConsoleKept s (s.link.setPc target) ∧
      State.EngineKept s (s.link.setPc target) := by
  refine ⟨?_, rfl, fun r hr => ?_, rfl, s.cell_link, ⟨rfl, rfl⟩, ⟨rfl, rfl⟩⟩
  · rw [State.reg_setPc, State.reg_link, if_pos rfl]
  · rw [State.reg_setPc, State.reg_link, if_neg (List.ne_of_not_mem_cons hr)]

/-! ### Who keeps pc (R96) -/

@[simp] theorem State.awaitGetc_pc (s : State) : s.awaitGetc.pc = s.pc := by
  cases hk : s.kbdIn with
  | nil => rw [State.awaitGetc_nil hk]; rfl
  | cons c rest => rw [State.awaitGetc_cons hk]; rfl

@[simp] theorem State.awaitIn_pc (s : State) : s.awaitIn.pc = s.pc := by
  cases hk : s.kbdIn with
  | nil => rw [State.awaitIn_nil hk]; rfl
  | cons c rest => rw [State.awaitIn_cons hk]; rfl

/-- No service changes pc (R96, R100). -/
@[simp] theorem State.service_pc (s : State) (vect : BitVec 8) : (s.service vect).pc = s.pc :=
  State.service_cases (P := fun t => t.pc = s.pc) s.awaitGetc_pc rfl (State.stringFrom_pc _ _ _ _ _ s)
    (State.awaitIn_pc _) (State.stringFrom_pc _ _ _ _ _ s) rfl rfl vect

/-- No part of a service in progress changes pc (R102, R109). -/
theorem State.resume_pc (s : State) : ∀ p, (s.resume p).pc = s.pc
  | .getc => s.awaitGetc_pc
  | .inRead => s.awaitIn_pc
  | .puts a => State.stringFrom_pc _ _ _ _ a s
  | .putsp a => State.stringFrom_pc _ _ _ _ a s

/-- An instruction that is no control transfer leaves pc as the fetch set it (R96). -/
theorem exec_pc {i : Instr} {s t : State} (hi : i.transfers = false) (h : exec i s = .next t) : t.pc = s.pc := by
  cases i with
  | br | jmp | ret | jsr | jsrr => cases hi
  | addReg | addImm | andReg | andImm | not | lea => cases h; rfl
  | st | str | nop | rti | res | trapOther => cases h; rfl
  | ld | ldr | sti => cases h; exact s.pollAt_pc _
  | ldi => cases h; exact (State.pollAt_pc _ _).trans (s.pollAt_pc _)
  | trap vect => cases h; exact s.link.service_pc vect
  | trapGetc => cases h; exact s.link.service_pc 0x20
  | trapOut => cases h; exact s.link.service_pc 0x21
  | trapPuts => cases h; exact s.link.service_pc 0x22
  | trapIn => cases h; exact s.link.service_pc 0x23
  | trapPutsp => cases h; exact s.link.service_pc 0x24
  | trapHalt => cases h; exact s.link.service_pc 0x25

end Sys2Proof.Machine
end

section
/-! PROOFS of 42_control.md: branches, jumps and calls, and that nothing else changes pc. -/

namespace Sys2Proof.Proofs.Control

open Sys2Proof Sys2Proof.Machine

/-- Settles O52, by the instructions that are no transfer and by the parts of a service. -/
theorem pcChangedOnlyByTransfers : Obligations.PcChangedOnlyByTransfers := by
  refine ⟨fun i s t hi h => exec_pc hi h, fun p s t hr hp h => ?_⟩
  obtain rfl := step_of_pending hr hp h
  exact s.resume_pc p

/-- Settles O32: the test is the one R90 states, and with no condition bit it fails and pc is set to itself. -/
theorem brBranchesOnCond : Obligations.BrBranchesOnCond := by
  refine fun n z p off9 s => ⟨?_, exec_nop s, exec_br false false false off9 s⟩
  simp only [exec_br, Cond.taken_iff, State.pcRel9, sextField]

/-- Settles O34: JMP and RET set pc, to the register they name. -/
theorem jmpJumps : Obligations.JmpJumps :=
  fun dcHi base dcLo s => ⟨exec_jmp dcHi base dcLo s, exec_ret s⟩

/-- Settles O35: JSR is a linked transfer to its PC-relative address. -/
theorem jsrLinksAndJumps : Obligations.JsrLinksAndJumps :=
  fun off11 s => ⟨_, exec_jsr off11 s, s.link_setPc_effect (s.pcRel11 off11)⟩

/-- Settles O36: JSRR is a linked transfer, to the link itself where the base is x[7]. -/
theorem jsrrLinksThenReads : Obligations.JsrrLinksThenReads :=
  fun dcHi base dcLo s => ⟨_, exec_jsrr dcHi base dcLo s, s.link_setPc_effect _⟩

end Sys2Proof.Proofs.Control
end

section
/-! SUPPORT. TRAP's rows as the link write and one service each, what the link and a character received do to the whole
state, and the string services from the memory and console their first read leaves. -/

namespace Sys2Proof.Machine

/-! ### An equation for each row of TRAP and for the reserved opcodes (R100 to R111) -/

theorem exec_trap (vect : BitVec 8) (s : State) : exec (.trap vect) s = .next (s.link.service vect) := rfl

theorem exec_trapGetc (dc : BitVec 4) (s : State) : exec (.trapGetc dc) s = .next s.link.awaitGetc := rfl

/-- OUT: the link write keeps x[0], so the character is the one x[0] holds before it. -/
theorem exec_trapOut (dc : BitVec 4) (s : State) : exec (.trapOut dc) s = .next (s.link.conWrite (charByte (s.reg 0))) :=
  congrArg (fun w => Host.Outcome.next (s.link.conWrite (charByte w))) s.reg_link_serviceReg

/-- PUTS: the link write keeps x[0], so the string is the one x[0] points to before it. -/
theorem exec_trapPuts (dc : BitVec 4) (s : State) :
    exec (.trapPuts dc) s = .next (State.stringFrom putsEnds plainBytes .puts stringReads (s.reg 0) s.link) :=
  congrArg (fun a => Host.Outcome.next (State.putsFrom stringReads a s.link)) s.reg_link_serviceReg

theorem exec_trapIn (dc : BitVec 4) (s : State) :
    exec (.trapIn dc) s = .next (s.link.conWriteAll Config.inPrompt).awaitIn := rfl

/-- PUTSP: the link write keeps x[0], so the string is the one x[0] points to before it. -/
theorem exec_trapPutsp (dc : BitVec 4) (s : State) :
    exec (.trapPutsp dc) s = .next (State.stringFrom putspEnds packedBytes .putsp stringReads (s.reg 0) s.link) :=
  congrArg (fun a => Host.Outcome.next (State.putspFrom stringReads a s.link)) s.reg_link_serviceReg

theorem exec_trapHalt (dc : BitVec 4) (s : State) :
    exec (.trapHalt dc) s = .next { s.link.conWriteAll Config.haltNotice with runState := .halted } := rfl

theorem exec_trapOther (dc : BitVec 4) (vect : BitVec 8) (s : State) : exec (.trapOther dc vect) s = .next s.link := rfl

/-- TRAP on a vector no service has is the link write (R108). -/
theorem exec_trap_of_not_served {vect : BitVec 8} (hv : servedVector vect = false) (s : State) :
    exec (.trap vect) s = .next s.link :=
  (exec_trap vect s).trans (congrArg Host.Outcome.next (s.link.service_of_not_served hv))

theorem exec_rti (dc : BitVec 12) (s : State) : exec (.rti dc) s = .next (s.raiseFatal .rti) := rfl

theorem exec_res (dc : BitVec 12) (s : State) : exec (.res dc) s = .next (s.raiseFatal .res) := rfl

/-! ### The link -/

/-- The link write puts pc into x[7] (R100). -/
theorem State.reg_link_linkReg (s : State) : s.link.reg linkReg = s.pc :=
  (s.reg_link linkReg).trans (if_pos rfl)

/-- The link write keeps every other register (R100). -/
theorem State.regsKept_link (s : State) : State.RegsKept [linkReg] s s.link :=
  fun r hr => (s.reg_link r).trans (if_neg (List.ne_of_not_mem_cons hr))

/-- No service writes x[7] (the table after R11). -/
theorem State.reg_linkReg_service (s : State) (vect : BitVec 8) : (s.service vect).reg linkReg = s.reg linkReg :=
  State.service_cases (P := fun t => t.reg linkReg = s.reg linkReg) (s.writes_awaitGetc.regs linkReg (by decide)) rfl
    ((State.writes_stringFrom _ _ _ _ _ s).regs linkReg (by decide)) (s.writes_serviceIn.regs linkReg (by decide))
    ((State.writes_stringFrom _ _ _ _ _ s).regs linkReg (by decide)) rfl rfl vect

/-! ### Characters (R101, R103, R105) -/

/-- A character is never negative: bit 15 of its word is clear (R101). -/
theorem condOf_zextByte (c : Byte) : condOf (zextByte c) = if c = 0 then .zero else .pos := by
  have hzero : zextByte c = 0 ↔ c = 0 := by
    unfold zextByte
    bv_omega
  have hbit : (zextByte c).getLsbD 15 = false := by simp [zextByte]
  simp only [condOf_eq, hzero, hbit, Bool.false_eq_true, if_false]

/-- Both readings of C3 agree up to 0x00FF. -/
theorem toNat_charByte {w : Word} (h : w.toNat ≤ 0x00FF) : (charByte w).toNat = w.toNat := by
  have hlow : w.toNat % 256 = w.toNat := Nat.mod_eq_of_lt (by omega)
  simpa [charByte] using hlow

/-- A character received after the link write: x[7] the link, x[0] the character with its flags, every other register kept
(R101, R105). -/
theorem State.writeResult_of_link {s m : State} (hm : m.regs = s.link.regs) (c : Byte) :
    (m.writeResult serviceReg (zextByte c)).reg linkReg = s.pc ∧
      (m.writeResult serviceReg (zextByte c)).reg serviceReg = c.setWidth 16 ∧
      (m.writeResult serviceReg (zextByte c)).cond = (if c = 0 then .zero else .pos) ∧
      State.RegsKept [linkReg, serviceReg] s (m.writeResult serviceReg (zextByte c)) := by
  have hw : State.Writes [serviceReg] (some serviceReg) s.link (m.writeResult serviceReg (zextByte c)) :=
    State.writes_writeResult hm
  exact ⟨(hw.regs linkReg (by decide)).trans s.reg_link_linkReg, m.reg_writeResult_same serviceReg (zextByte c),
    condOf_zextByte c, hw.of_link.regs⟩

/-! ### The hold (R102, D8) -/

/-- GETC goes on holding while no input is pending. -/
theorem step_hold_getc {s : State} (hr : s.runState = .running) (hk : s.kbdIn = []) :
    step (s.setPending (some .getc)) = .next (s.setPending (some .getc)) :=
  (step_of_running_pending (s := s.setPending (some .getc)) hr rfl).trans
    (congrArg Host.Outcome.next (State.awaitGetc_nil (s := s.setPending (some .getc)) hk))

/-- IN goes on holding while no input is pending, and its prompt is not written again. -/
theorem step_hold_inRead {s : State} (hr : s.runState = .running) (hk : s.kbdIn = []) :
    step (s.setPending (some .inRead)) = .next (s.setPending (some .inRead)) :=
  (step_of_running_pending (s := s.setPending (some .inRead)) hr rfl).trans
    (congrArg Host.Outcome.next (State.awaitIn_nil (s := s.setPending (some .inRead)) hk))

/-- A GETC that finds a character leaves no trace of having held. -/
theorem State.awaitGetc_setPending {s : State} {c : Byte} {rest : List Byte} (hk : s.kbdIn = c :: rest)
    (p : Option Pending) : (s.setPending p).awaitGetc = s.awaitGetc :=
  (State.awaitGetc_cons (s := s.setPending p) hk).trans (State.awaitGetc_cons hk).symm

/-- An IN that finds a character leaves no trace of having held. -/
theorem State.awaitIn_setPending {s : State} {c : Byte} {rest : List Byte} (hk : s.kbdIn = c :: rest)
    (p : Option Pending) : (s.setPending p).awaitIn = s.awaitIn :=
  (State.awaitIn_cons (s := s.setPending p) hk).trans (State.awaitIn_cons hk).symm

/-- A byte that arrives ends GETC's hold as it would have ended GETC without one. -/
theorem step_arrive_getc {s : State} (hr : s.runState = .running) (hk : s.kbdIn = []) (c : Byte) (bs : List Byte) :
    step ((s.setPending (some .getc)).arrive (c :: bs)) = .next (s.arrive (c :: bs)).awaitGetc := by
  have harrived : (s.arrive (c :: bs)).kbdIn = c :: bs := congrArg (· ++ c :: bs) hk
  rw [step_of_running_pending (s := (s.setPending (some .getc)).arrive (c :: bs)) hr rfl]
  exact congrArg Host.Outcome.next (State.awaitGetc_setPending harrived (some .getc))

/-- A byte that arrives ends IN's hold as it would have ended IN without one. -/
theorem step_arrive_inRead {s : State} (hr : s.runState = .running) (hk : s.kbdIn = []) (c : Byte) (bs : List Byte) :
    step ((s.setPending (some .inRead)).arrive (c :: bs)) = .next (s.arrive (c :: bs)).awaitIn := by
  have harrived : (s.arrive (c :: bs)).kbdIn = c :: bs := congrArg (· ++ c :: bs) hk
  rw [step_of_running_pending (s := (s.setPending (some .inRead)).arrive (c :: bs)) hr rfl]
  exact congrArg Host.Outcome.next (State.awaitIn_setPending harrived (some .inRead))

/-- GETC with no input holds where its link write has left it (R102). -/
theorem exec_trapGetc_nil {s : State} (dc : BitVec 4) (hk : s.kbdIn = []) :
    exec (.trapGetc dc) s = .next (s.link.setPending (some .getc)) :=
  (exec_trapGetc dc s).trans (congrArg Host.Outcome.next (State.awaitGetc_nil (s := s.link) hk))

/-- IN with no input holds where its prompt has left it (R102). -/
theorem exec_trapIn_nil {s : State} (dc : BitVec 4) (hk : s.kbdIn = []) :
    exec (.trapIn dc) s = .next ((s.link.conWriteAll Config.inPrompt).setPending (some .inRead)) :=
  (exec_trapIn dc s).trans (congrArg Host.Outcome.next (State.awaitIn_nil (s := s.link.conWriteAll Config.inPrompt) hk))

/-! ### The string services -/

/-- Two reads that leave the same queue and the same cells. -/
theorem State.kept_of_same_read {v w u : Word} {queue : List Byte} {cells : Word → Word} {m t : State}
    (hm : v = u ∧ m.kbdIn = queue ∧ ∀ b, m.cell b = cells b) (ht : w = u ∧ t.kbdIn = queue ∧ ∀ b, t.cell b = cells b) :
    State.CellsKept m t ∧ t.kbdIn = m.kbdIn := by
  obtain ⟨-, hkbd, hcells⟩ := hm
  obtain ⟨-, hkbd', hcells'⟩ := ht
  exact ⟨fun b => (hcells' b).trans (hcells b).symm, hkbd'.trans hkbd.symm⟩

/-- One `MemRead` leaves one memory and one queue (R31, R32). -/
theorem State.ReadEffect.unique {a v w : Word} {s m t : State} (hm : State.ReadEffect a v s m)
    (ht : State.ReadEffect a w s t) : State.CellsKept m t ∧ t.kbdIn = m.kbdIn := by
  obtain ⟨-, hm⟩ := hm
  obtain ⟨-, ht⟩ := ht
  by_cases ha : a = 0xFE00
  · rw [if_pos ha] at hm ht
    cases hk : s.kbdIn with
    | nil | cons =>
      rw [hk] at hm ht
      exact State.kept_of_same_read hm ht
  · rw [if_neg ha] at hm ht
    exact State.kept_of_same_read hm ht

/-- A string of `n` words, told by the memory and console `m` that the first read leaves: its bytes are written, and then the
service is over or waits before a later 0xFE00 (R34, R104, R106; log entry 11). The link write is nothing the string reads. -/
theorem State.stringFrom_link_of_readEffect {ends : Word → Bool} {a : Word} {s m : State} {n : Nat}
    (send : Word → List Byte) (wait : Word → Pending) (hm : State.ReadEffect a (m.cell a) s m)
    (hwords : ∀ k, k < n → ends (m.cell (a + BitVec.ofNat 16 k)) = false)
    (hne : ∀ k, k < n → k ≠ 0 → a + BitVec.ofNat 16 k ≠ kbsr)
    (hend : ¬ (n ≠ 0 ∧ a + BitVec.ofNat 16 n = kbsr) → ends (m.cell (a + BitVec.ofNat 16 n)) = true) :
    ∃ t, State.stringFrom ends send wait stringReads a s.link = t ∧
      t.conOut = s.conOut ++ (List.range n).flatMap (fun k => send (m.cell (a + BitVec.ofNat 16 k))) ∧
      t.kbdIn = m.kbdIn ∧ State.CellsKept m t ∧
      t.pending = if n ≠ 0 ∧ a + BitVec.ofNat 16 n = kbsr then some (wait kbsr) else none := by
  obtain ⟨hcells, hkbd⟩ := hm.unique (s.link.readEffect_pollAt a)
  have hcell : (s.link.pollAt a).cell = m.cell := funext hcells
  rw [← hcell] at hwords hend ⊢
  refine ⟨_, State.stringFrom_of_length send wait hwords hne hend, ?_, hkbd, hcells, rfl⟩
  simp

end Sys2Proof.Machine
end

section
/-! PROOFS of 43_trap_reserved.md: TRAP and its services, and the reserved opcodes. -/

namespace Sys2Proof.Proofs.TrapReserved

open Sys2Proof Sys2Proof.Machine

/-- Settles O37: a word of opcode 0xF executes as TRAP of its vector, and TRAP is the link write and the dispatcher's table,
whose services all keep x[7] and pc. -/
theorem trapDispatches : Obligations.TrapDispatches := by
  refine ⟨fun w s hw => exec_decode_trap hw s, fun vect s => ⟨_, exec_trap vect s, ?_, s.link.service_pc vect, ?_⟩⟩
  · exact (s.link.reg_linkReg_service vect).trans s.reg_link_linkReg
  · exact ⟨fun hv => hv ▸ rfl, fun hv => hv ▸ rfl, fun hv => hv ▸ rfl, fun hv => hv ▸ rfl, fun hv => hv ▸ rfl,
      fun hv => hv ▸ rfl, fun hv => (exec_trap_of_not_served hv s).symm⟩

/-- Settles O41: with no input pending the services stop at their `ConRead()`, after the link write and IN's prompt, and the
next step finds them there again. -/
theorem noInputHolds : Obligations.NoInputHolds := by
  refine fun dc s hk => ⟨⟨_, exec_trapGetc_nil dc hk, s.reg_link_linkReg, rfl, rfl, hk, s.regsKept_link, rfl, rfl,
      fun _ => rfl, rfl, fun hr => ?_⟩,
    ⟨_, exec_trapIn_nil dc hk, s.reg_link_linkReg, rfl, rfl, hk, s.regsKept_link, rfl, rfl, fun _ => rfl, rfl,
      fun hr => ?_⟩⟩
  · exact step_hold_getc (s := s.link) hr hk
  · exact step_hold_inRead (s := s.link.conWriteAll Config.inPrompt) hr hk

/-- Settles O42: the arrival meets the state the input would have met, but for the service in progress, which a service that
finds a character does not look at. -/
theorem holdIsTransparent : Obligations.HoldIsTransparent := by
  refine fun dc s h c bs hr hk => ⟨fun hh => ?_, fun hh => ?_⟩
  · rw [exec_trapGetc_nil dc hk] at hh
    cases hh
    exact step_arrive_getc (s := s.link) hr hk c bs
  · rw [exec_trapIn_nil dc hk] at hh
    cases hh
    exact step_arrive_inRead (s := s.link.conWriteAll Config.inPrompt) hr hk c bs

/-- Settles O44: the string from x[0] by its length; one byte a word, so that byte k is word k's. -/
theorem putsWritesString : Obligations.PutsWritesString := by
  intro dc s m n hm hne hwords hend
  obtain ⟨t, ht, hout, hkbd, hcells, hpending⟩ := State.stringFrom_link_of_readEffect (ends := putsEnds) plainBytes .puts hm
    (fun k hk => beq_false_of_ne (hwords k hk)) hne (fun hstop => beq_iff_eq.mpr (hend hstop))
  obtain ⟨hlink, hregs, hcond, hpc, hrun, -⟩ := State.stringFrom_link_frame ht.symm
  have hbytes : t.conOut =
      s.conOut ++ (List.range n).map (fun k => charByte (m.cell (s.reg 0 + BitVec.ofNat 16 k))) := by
    rw [List.map_eq_flatMap]; exact hout
  refine ⟨t, (exec_trapPuts dc s).trans (congrArg _ ht), hbytes, fun k hk hle => ?_, hkbd, hlink, hregs, hcond, hpc, hcells,
    hrun, hpending⟩
  rw [hbytes, List.getD_append_right _ _ _ _ (Nat.le_add_right _ _), Nat.add_sub_cancel_left]
  simpa [hk] using toNat_charByte hle

/-- Settles O45: the string from x[0] by its length. -/
theorem putspWritesString : Obligations.PutspWritesString := by
  intro dc s m n hm hne hwords hend
  obtain ⟨t, ht, hout, hkbd, hcells, hpending⟩ := State.stringFrom_link_of_readEffect (ends := putspEnds) packedBytes .putsp hm
    (fun k hk => beq_false_of_ne (hwords k hk)) hne (fun hstop => beq_iff_eq.mpr (hend hstop))
  obtain ⟨hlink, hregs, hcond, hpc, hrun, -⟩ := State.stringFrom_link_frame ht.symm
  exact ⟨t, (exec_trapPutsp dc s).trans (congrArg _ ht), hout, hkbd, hlink, hregs, hcond, hpc, hcells, hrun, hpending⟩

/-- Settles O38: both rows of the other vectors are the link write alone. -/
theorem otherVectorOnlyLinks : Obligations.OtherVectorOnlyLinks :=
  fun vect dc s hv => ⟨s.link, exec_trapOther dc vect s, exec_trap_of_not_served hv s, s.reg_link_linkReg, s.regsKept_link,
    rfl, rfl, s.cell_link, ⟨rfl, rfl⟩, ⟨rfl, rfl⟩⟩

/-- Settles O39: with a character pending GETC's `ConRead()` returns, and the character is written as a result. -/
theorem getcTakesCharacter : Obligations.GetcTakesCharacter := by
  intro dc s c rest hk
  obtain ⟨hlink, hreg, hcond, hregs⟩ :=
    State.writeResult_of_link (s := s) (m := ({ s.link with kbdIn := rest } : State).setPending none) rfl c
  exact ⟨_, (exec_trapGetc dc s).trans (congrArg _ (State.awaitGetc_cons (s := s.link) hk)), hlink, hreg, hcond, rfl, rfl,
    hregs, rfl, fun _ => rfl, rfl, rfl⟩

/-- Settles O40: after the prompt a character pending is echoed and written as a result. -/
theorem inPromptsAndEchoes : Obligations.InPromptsAndEchoes := by
  intro dc s c rest hk
  obtain ⟨hlink, hreg, hcond, hregs⟩ := State.writeResult_of_link (s := s)
    (m := (({ s.link.conWriteAll Config.inPrompt with kbdIn := rest } : State).setPending none).conWrite c) rfl c
  exact ⟨_, (exec_trapIn dc s).trans
    (congrArg _ (State.awaitIn_cons (s := s.link.conWriteAll Config.inPrompt) hk)), hlink, hreg, hcond, rfl, rfl,
    hregs, rfl, fun _ => rfl, rfl, rfl⟩

/-- Settles O43: the byte is the character of x[0], the link write the only other change. -/
theorem outWritesCharacter : Obligations.OutWritesCharacter :=
  fun dc s => ⟨_, charByte (s.reg 0), exec_trapOut dc s, rfl, toNat_charByte, rfl, s.reg_link_linkReg, s.regsKept_link, rfl,
    rfl, fun _ => rfl, ⟨rfl, rfl⟩⟩

/-- Settles O48: HALT is the link write, the notice and HALTED. -/
theorem haltStops : Obligations.HaltStops :=
  fun dc s => ⟨_, exec_trapHalt dc s, rfl, rfl, rfl, s.reg_link_linkReg, s.regsKept_link, rfl, rfl, fun _ => rfl, rfl⟩

/-- Settles O49: both opcodes are one `raise Fatal`, and a step in FATAL is a fault (O50). -/
theorem reservedOpcodesAreFatal : Obligations.ReservedOpcodesAreFatal := by
  refine fun dc s => ⟨exec_rti dc s, exec_res dc s, fun c u hu => ?_⟩
  have hfault := (StateTuple.terminalStatesStay { s with runState := .fatal c }).2 c rfl
  rw [hfault] at hu
  cases hu

end Sys2Proof.Proofs.TrapReserved
end

section
/-! PROOFS of 60_exceptions.md: every instruction, and every step of a RUNNING engine, completes. -/

namespace Sys2Proof.Proofs.Exceptions

open Sys2Proof Sys2Proof.Machine

/-- No row's meaning has an arm that stops: a TRAP that holds and a reserved opcode have a next state too
(R122, R131; log entries 10, 14). -/
theorem exec_completes (i : Instr) (s : State) : ∃ t, exec i s = .next t := by
  cases i with
  | addReg | addImm | andReg | andImm | not => exact ⟨_, rfl⟩
  | ld | ldi | ldr | lea | st | sti | str => exact ⟨_, rfl⟩
  | br | nop | jmp | ret | jsr | jsrr => exact ⟨_, rfl⟩
  | trap | trapGetc | trapOut | trapPuts | trapIn | trapPutsp | trapHalt | trapOther => exact ⟨_, rfl⟩
  | rti | res => exact ⟨_, rfl⟩

/-- Settles O55: every instruction completes, and a RUNNING engine's step is the instruction fetched or the next part of the
service in progress. -/
theorem everyInstructionCompletes : Obligations.EveryInstructionCompletes := by
  refine ⟨exec_completes, fun s hr => ?_⟩
  cases hp : s.pending with
  | none =>
    rw [step_of_running hr hp]
    exact exec_completes _ _
  | some p => exact ⟨_, step_of_running_pending hr hp⟩

end Sys2Proof.Proofs.Exceptions
end

section
/-! SUPPORT. What a load leaves at every address, said once (R143 to R145). -/

namespace Sys2Proof.Machine

/-- The words of an image land from `a` up, as far as whole words and the address space go, and nowhere else
(R144, R145). -/
theorem Memory.get_loadWords (m : Memory) (a c : Nat) (b : List Byte) :
    (m.loadWords a b).get c =
      if a ≤ c ∧ c ≤ 0xFFFF ∧ 2 * (c - a) + 1 < b.length then
        beWord (b.getD (2 * (c - a)) 0) (b.getD (2 * (c - a) + 1) 0)
      else m.get c := by
  fun_induction Memory.loadWords m a b with
  | case1 m a hi lo rest ha ih =>
    rw [ih, Memory.get_set]
    obtain hlt | rfl | hgt := Nat.lt_trichotomy c a
    · rw [if_neg (by omega), if_neg (by omega), if_neg (by omega)]
    · rw [if_neg (by omega), if_pos rfl, if_pos (by simp [ha]), Nat.sub_self]
      rfl
    · have hstart : a ≤ c ↔ a + 1 ≤ c := by omega
      have hidx : 2 * (c - a) = 2 * (c - (a + 1)) + 1 + 1 := by omega
      simp only [hstart, hidx, List.length_cons, Nat.add_lt_add_iff_right, List.getD_cons_succ, if_neg hgt.ne']
  | case2 m a hi lo rest ha => rw [if_neg (by omega)]
  | case3 | case4 => simp

/-- An image with an origin loads its further bytes as words from there (R144). -/
theorem Memory.load_cons_cons (m : Memory) (hi lo : Byte) (b : List Byte) :
    m.load (hi :: lo :: b) = m.loadWords (hi ++ lo : Word).toNat b := rfl

/-- An image without an origin loads nothing (R145, D14). -/
theorem Memory.load_of_length_lt_two {b : List Byte} (m : Memory) (h : b.length < 2) : m.load b = m := by
  match b, h with
  | [], _ | [_], _ => rfl

end Sys2Proof.Machine
end

section
/-! PROOFS of 70_reset_and_hazards.md: image loading, the start of execution and the order of a step. -/

namespace Sys2Proof.Proofs.ResetHazards

open Sys2Proof Sys2Proof.Machine

/-- Settles O10: word `k` is the read at origin + `k`, and an address that is no such sum is outside the image. -/
theorem loadStoresImageWords : Obligations.LoadStoresImageWords := by
  refine fun m => ⟨fun hi lo b => ⟨fun k hk ha => ?_, fun a ha => ?_⟩, fun b hb => Memory.load_of_length_lt_two m hb⟩
  · rw [Memory.load_cons_cons, Memory.get_loadWords, Nat.add_sub_cancel_left,
      if_pos ⟨Nat.le_add_right _ _, ha, hk⟩]
    rfl
  · rw [Memory.load_cons_cons, Memory.get_loadWords, if_neg]
    rintro ⟨hle, hmax, hlen⟩
    have hsum := Nat.add_sub_cancel' hle
    exact ha _ hlen (hsum.trans_le hmax) hsum.symm

/-- Settles O6: the fetch is MemRead(pc) and the increment, and away from 0xFE00 the read has no side effect. -/
theorem stepRunsDecodedInstruction : Obligations.StepRunsDecodedInstruction := by
  refine fun s hr hp => ⟨step_of_running hr hp, fun hpc => ?_⟩
  rw [step_of_running hr hp, State.fetch_of_ne hpc]
  rfl

/-- Settles O9: the boot state is RUNNING at 0x3000, outside a service, and 0x0000 decodes to NOP. -/
theorem bootStartsAt3000 : Obligations.BootStartsAt3000 := by
  intro images kbd
  have hstep := (stepRunsDecodedInstruction (State.boot images kbd) rfl rfl).2 (by decide : (0x3000 : Word) ≠ 0xFE00)
  refine ⟨hstep, fun hzero => hstep.trans ?_⟩
  have hnop : decode ((State.boot images kbd).cell 0x3000) = .nop := by rw [hzero, decode_nop rfl]
  exact (congrArg (exec · _) hnop).trans (exec_nop _)

/-- Settles O11: the images are a left fold over the memory zeroed once. -/
theorem laterImageLoadsOverEarlier : Obligations.LaterImageLoadsOverEarlier :=
  fun images b _ => ⟨rfl, List.foldl_concat Memory.load [] b images⟩

end Sys2Proof.Proofs.ResetHazards
end
